-- ==== Sys2Proof/Config.lean ====
section
/-! DEFINITION. The parameters of the block (spec/00_scope.md R6): word width, memory capacity and
overflow policy. The spec leaves them to the implementation, so they are data of the machine
(`Machine.State.cfg`), which no step and no host operation changes (assumption log entry 2). The
spec leaves no result value open, so there is no free value here. -/

namespace Sys2Proof

/-- `OVERFLOW_POLICY` (00_scope.md R6, 92_eei_decisions.md D3): what Add and Multiply do when the
exact result does not fit in W bits. -/
inductive OverflowPolicy where
  /-- raise ArithmeticOverflow (the spec's default) -/
  | fault
  /-- write the wrapped result -/
  | wrap
  deriving DecidableEq, Repr

/-- The implementation parameters of 00_scope.md R6. -/
structure Config where
  /-- `W`, the width in bits of a word -/
  wordBits : Nat
  /-- `MEM_WORDS`, the largest image that can be loaded, in words -/
  memWords : Nat
  /-- `OVERFLOW_POLICY` -/
  overflow : OverflowPolicy
  deriving DecidableEq, Repr

/-- The parameters of `Machine.State.reset`: `W = 64` and `FAULT` are the spec's defaults (R6, D1,
D3). DESIGN CHOICE (log entry 2, unsafe): MEM_WORDS is OPEN in the spec (D2), and this is the
largest value its constraint `MEM_WORDS + 4 <= 2^(W-1)` admits. -/
def Config.default : Config where
  wordBits := 64
  memWords := 2 ^ 63 - 4
  overflow := .fault

end Sys2Proof
end

