-- ==== Sys2Proof/Word.lean ====
section
/-! DEFINITION. Words. A memory word, a register value or an index is a mathematical integer
(spec/00_scope.md R7: "Values are mathematical integers unless stated otherwise"; "A word is an integer
in [-2^(W-1), 2^(W-1) - 1]"). The encoding is decimal and no rule reads individual bits, so the word
type is `Int`; that a value lies in the range below is the machine's invariant (`Machine.Inv`), W being
a parameter (log entry 1). -/

namespace Sys2Proof

/-- The least word, `-2^(W-1)` (R7). -/
def minWord (W : Nat) : Int := -((2 ^ (W - 1) : Nat) : Int)

/-- The greatest word, `2^(W-1) - 1` (R7). -/
def maxWord (W : Nat) : Int := ((2 ^ (W - 1) : Nat) : Int) - 1

end Sys2Proof
end

