-- ==== Sys2Proof/Machine/Arith.lean ====
section
/-! DEFINITION. Integer arithmetic of the pseudocode (spec/00_scope.md R7): truncating division and
remainder, the W-bit range, wrapping, and the constraint on the parameters (R6). -/

namespace Sys2Proof.Machine

/-- `a div b`: division truncated toward zero (R7, D4). -/
def divT (a b : Int) : Int := Int.tdiv a b

/-- `a rem b = a - b * (a div b)`: its sign follows `a` (R7, D4). -/
def remT (a b : Int) : Int := Int.tmod a b

/-- `fitsW(v)` (R7). -/
def fitsW (W : Nat) (v : Int) : Bool := decide (minWord W ≤ v ∧ v ≤ maxWord W)

/-- `wrapW(v)`: the unique word congruent to `v` modulo `2^W` (R7). -/
def wrapW (W : Nat) (v : Int) : Int := Int.bmod v (2 ^ W)

/-- The constraint of R6 on the parameters: `MEM_WORDS + 4 <= 2^(W-1)`, so that `pc + k` never
leaves the word range. -/
def configWellFormed (c : Config) : Bool := decide (c.memWords + 4 ≤ 2 ^ (c.wordBits - 1))

end Sys2Proof.Machine
end

