-- ==== Sys2Proof/Syntax.lean ====
section
/-! DEFINITION. Instructions as syntax: addressing modes, the nine opcodes, and one constructor of
`Instr` for each row of spec/opcode_table.json. -/

namespace Sys2Proof

/-- A mode digit of an instruction word (30_encoding.md R48). It is kept as decoded, because it is
examined only when its operand is resolved (R54). -/
inductive Mode where
  /-- digit 0: the operand cell holds an index -/
  | position
  /-- digit 1: the operand cell holds the value -/
  | immediate
  /-- digits 2 to 9: no mode; resolving the operand raises UnknownAddressingMode -/
  | unknown (digit : Nat)
  deriving DecidableEq, Repr

/-- Whether an operand is read or names the cell written (30_encoding.md R50, R55). -/
inductive OperandKind where
  | read
  | dest
  deriving DecidableEq, Repr

/-- The nine opcodes (30_encoding.md R50, R51), under the spec's names. -/
inductive Opcode where
  | add | multiply | input | output | jumpIfTrue | jumpIfFalse | lessThan | equals | halt
  deriving DecidableEq, Repr

/-- An instruction as its instruction word gives it (30_encoding.md R44, R45). `m1`, `m2`, `m3` are
the mode digits C, B, A of the operands the opcode has. `high` is the number formed by the digits
above them, which no instruction reads (R54); it is kept because ArithmeticOverflow records the
whole instruction word (60_exceptions.md R87). Operand cells are not part of `Instr`: they are
memory words at `pc + k`, read and bounds-checked while the instruction runs (40_dispatch.md R61). -/
inductive Instr where
  /-- ADD, opcode 1 (41_arithmetic.md R72) -/
  | add (m1 m2 m3 : Mode) (high : Nat)
  /-- MUL, opcode 2 (41_arithmetic.md R73) -/
  | multiply (m1 m2 m3 : Mode) (high : Nat)
  /-- IN, opcode 3 (42_io.md R76) -/
  | input (m1 : Mode) (high : Nat)
  /-- OUT, opcode 4 (42_io.md R77) -/
  | output (m1 : Mode) (high : Nat)
  /-- JT, opcode 5 (43_jumps.md R78) -/
  | jumpIfTrue (m1 m2 : Mode) (high : Nat)
  /-- JF, opcode 6 (43_jumps.md R79) -/
  | jumpIfFalse (m1 m2 : Mode) (high : Nat)
  /-- LT, opcode 7 (44_compare.md R81) -/
  | lessThan (m1 m2 m3 : Mode) (high : Nat)
  /-- EQ, opcode 8 (44_compare.md R82) -/
  | equals (m1 m2 m3 : Mode) (high : Nat)
  /-- HALT, opcode 99 (45_halt.md R84) -/
  | halt (high : Nat)
  deriving DecidableEq, Repr

/-- The opcode of an instruction. -/
def Instr.opcode : Instr → Opcode
  | .add .. => .add
  | .multiply .. => .multiply
  | .input .. => .input
  | .output .. => .output
  | .jumpIfTrue .. => .jumpIfTrue
  | .jumpIfFalse .. => .jumpIfFalse
  | .lessThan .. => .lessThan
  | .equals .. => .equals
  | .halt .. => .halt

/-- The operand modes of an instruction, operand 1 first. -/
def Instr.modes : Instr → List Mode
  | .add m1 m2 m3 _ => [m1, m2, m3]
  | .multiply m1 m2 m3 _ => [m1, m2, m3]
  | .input m1 _ => [m1]
  | .output m1 _ => [m1]
  | .jumpIfTrue m1 m2 _ => [m1, m2]
  | .jumpIfFalse m1 m2 _ => [m1, m2]
  | .lessThan m1 m2 m3 _ => [m1, m2, m3]
  | .equals m1 m2 m3 _ => [m1, m2, m3]
  | .halt _ => []

/-- The digits no instruction reads, as a number (30_encoding.md R54). -/
def Instr.high : Instr → Nat
  | .add _ _ _ h => h
  | .multiply _ _ _ h => h
  | .input _ h => h
  | .output _ h => h
  | .jumpIfTrue _ _ h => h
  | .jumpIfFalse _ _ h => h
  | .lessThan _ _ _ h => h
  | .equals _ _ _ h => h
  | .halt h => h

/-- The same instruction with other unread digits. -/
def Instr.withHigh (h : Nat) : Instr → Instr
  | .add m1 m2 m3 _ => .add m1 m2 m3 h
  | .multiply m1 m2 m3 _ => .multiply m1 m2 m3 h
  | .input m1 _ => .input m1 h
  | .output m1 _ => .output m1 h
  | .jumpIfTrue m1 m2 _ => .jumpIfTrue m1 m2 h
  | .jumpIfFalse m1 m2 _ => .jumpIfFalse m1 m2 h
  | .lessThan m1 m2 m3 _ => .lessThan m1 m2 m3 h
  | .equals m1 m2 m3 _ => .equals m1 m2 m3 h
  | .halt _ => .halt h

end Sys2Proof
end

