-- ==== Sys2Proof/WellFormed.lean ====
section
/-! DEFINITION. Which terms of `Instr` stand for instruction words: every mode is one decimal digit,
spelled one way only. (That the word also fits W bits depends on the machine's parameters:
`Machine.encodable` in Decode.lean.) -/

namespace Sys2Proof

/-- A mode digit is 0, 1, or one of 2 to 9 (30_encoding.md R48). Digits 0 and 1 have their own
constructors, so `unknown` holds none of them. -/
def Mode.wellFormed : Mode → Bool
  | .position => true
  | .immediate => true
  | .unknown d => decide (2 ≤ d) && decide (d ≤ 9)

/-- Every mode of the instruction is a digit. The unread digits may be any number (R54). -/
def Instr.wellFormed (i : Instr) : Bool := i.modes.all Mode.wellFormed

end Sys2Proof
end

