-- ==== Sys2Proof/Decode.lean ====
section
/-! DEFINITION. The opcode map, the decoder and the encoder (spec/30_encoding.md), and the reading of
an instruction from the opcode table's numbering of its bits. -/

namespace Sys2Proof

/-- The opcode's number, the two low decimal digits DE (30_encoding.md R50, R51). -/
def Opcode.number : Opcode → Nat
  | .add => 1
  | .multiply => 2
  | .input => 3
  | .output => 4
  | .jumpIfTrue => 5
  | .jumpIfFalse => 6
  | .lessThan => 7
  | .equals => 8
  | .halt => 99

/-- The operands of the opcode, operand 1 first (R50). -/
def Opcode.operands : Opcode → List OperandKind
  | .add => [.read, .read, .dest]
  | .multiply => [.read, .read, .dest]
  | .input => [.dest]
  | .output => [.read]
  | .jumpIfTrue => [.read, .read]
  | .jumpIfFalse => [.read, .read]
  | .lessThan => [.read, .read, .dest]
  | .equals => [.read, .read, .dest]
  | .halt => []

/-- The instruction's length in words: the instruction word and one cell per operand (R44, R50). -/
def Opcode.length (o : Opcode) : Nat := 1 + o.operands.length

/-- The rows of the opcode map (R51): exactly nine. -/
def opcodeMap : List Opcode :=
  [.add, .multiply, .input, .output, .jumpIfTrue, .jumpIfFalse, .lessThan, .equals, .halt]

/-- The opcode a number selects, if any (R52: every other value selects none). -/
def Opcode.ofNumber (n : Int) : Option Opcode := opcodeMap.find? (fun o => decide ((o.number : Int) = n))

/-- `opc(w) = w rem 100` (R46). -/
def opc (w : Int) : Int := Machine.remT w 100

/-- The mode digit of operand `k`: `((w div 100) div 10^(k-1)) rem 10` (R47). -/
def modeDigit (w : Int) (k : Nat) : Int :=
  Machine.remT (Machine.divT (Machine.divT w 100) ((10 ^ (k - 1) : Nat) : Int)) 10

/-- The number formed by decimal digit `n` of `w` and those above it. -/
def digitsFrom (w : Int) (n : Nat) : Nat := (Machine.divT w ((10 ^ n : Nat) : Int)).toNat

/-- The mode a digit selects (R48). -/
def Mode.ofDigit (d : Int) : Mode :=
  if d = 0 then .position else if d = 1 then .immediate else .unknown d.toNat

/-- The digit of a mode (R48). -/
def Mode.digit : Mode → Nat
  | .position => 0
  | .immediate => 1
  | .unknown d => d

/-- The mode of operand `k` of an instruction word (R47, R48). -/
def modeOf (w : Int) (k : Nat) : Mode := Mode.ofDigit (modeDigit w k)

/-- Why a word is no instruction: its opcode is not in the map (R52). A bad mode digit is no decoding
error: it faults when its operand is resolved (R54). -/
inductive DecodeError where
  /-- the whole word, as UnknownOpcode records it (60_exceptions.md R87) -/
  | unknownOpcode (w : Int)
  deriving DecidableEq, Repr

/-- The instruction of a word whose opcode is known: its operands' modes and the digits above. -/
def Opcode.instrOf (o : Opcode) (w : Int) : Instr :=
  match o with
  | .add => .add (modeOf w 1) (modeOf w 2) (modeOf w 3) (digitsFrom w 5)
  | .multiply => .multiply (modeOf w 1) (modeOf w 2) (modeOf w 3) (digitsFrom w 5)
  | .input => .input (modeOf w 1) (digitsFrom w 3)
  | .output => .output (modeOf w 1) (digitsFrom w 3)
  | .jumpIfTrue => .jumpIfTrue (modeOf w 1) (modeOf w 2) (digitsFrom w 4)
  | .jumpIfFalse => .jumpIfFalse (modeOf w 1) (modeOf w 2) (digitsFrom w 4)
  | .lessThan => .lessThan (modeOf w 1) (modeOf w 2) (modeOf w 3) (digitsFrom w 5)
  | .equals => .equals (modeOf w 1) (modeOf w 2) (modeOf w 3) (digitsFrom w 5)
  | .halt => .halt (digitsFrom w 2)

/-- The decoder, total on every word (R46, R51 to R53). A negative word has a remainder in `-99..0`,
which selects nothing. -/
def decode (w : Int) : Except DecodeError Instr :=
  match Opcode.ofNumber (opc w) with
  | some o => .ok (o.instrOf w)
  | none => .error (.unknownOpcode w)

/-- `DE + 100*C + 1000*B + 10000*A` with the digits above in front (R45): the opcode's number, then
each mode digit, then the unread digits. -/
def encodeDigits : List Mode → Nat → Nat
  | [], high => high
  | m :: ms, high => m.digit + 10 * encodeDigits ms high

/-- The encoder: the instruction word of an instruction (R45, R58). -/
def encode (i : Instr) : Int :=
  ((i.opcode.number + 100 * encodeDigits i.modes i.high : Nat) : Int)

/-- The instruction is well formed and its word fits W bits, so that a memory cell can hold it. -/
def encodable (W : Nat) (i : Instr) : Bool := i.wellFormed && Machine.fitsW W (encode i)

/-- Int `j` of an instruction laid out as bits: bits `W*j` to `W*j + W - 1` of `bits`, bit `W*j`
least significant, read as a two's-complement word (00_scope.md R6, R7; the numbering of bits is the
opcode table's; log entry 8). -/
def wordOfBits (W bits j : Nat) : Int := Machine.wrapW W ((bits / 2 ^ (W * j) : Nat) : Int)

/-- The words of an instruction from its bits, as many as the longest instruction has (R44): every
bit above `nbits` is 0. -/
def wordsOfBits (W nbits w : Nat) : List Int :=
  [wordOfBits W (w % 2 ^ nbits) 0, wordOfBits W (w % 2 ^ nbits) 1,
   wordOfBits W (w % 2 ^ nbits) 2, wordOfBits W (w % 2 ^ nbits) 3]

/-- The instruction the decoder reads from an instruction whose bits are `w`, at the spec's default
width. Only the first word decides (R50: the opcode alone fixes the length; no prefixes). -/
def decodeTableWord (nbits w : Nat) : Option Instr :=
  (decode (wordOfBits Config.default.wordBits (w % 2 ^ nbits) 0)).toOption

end Sys2Proof
end

