-- ==== Sys2Proof/Machine/State.lean ====
section
/-! DEFINITION. The state of one block instance (spec/10_state.md), what a step can raise, what the
step relation answers when no step exists, and the state after reset. -/

namespace Sys2Proof.Machine

/-- The run-control register `status` (10_state.md R17). -/
inductive Status where
  /-- the image is loaded and the run has not started -/
  | ready
  /-- steps are taken -/
  | running
  /-- a Halt instruction executed; terminal -/
  | halted
  /-- a fault ended the run; terminal -/
  | faulted
  deriving DecidableEq, Repr

/-- The fault record (10_state.md R20): five words. -/
structure FaultRecord where
  /-- `FCAUSE`: 0 none, 1 UnknownOpcode, 2 UnknownAddressingMode, 3 OutOfBounds,
  4 ImmediateDestination, 5 ArithmeticOverflow -/
  fcause : Int
  /-- `FPC`: pc of the step that faulted -/
  fpc : Int
  /-- `FVALUE`: the offending value, by cause -/
  fvalue : Int
  /-- `FOPERAND`: the operand offset 1 to 3 concerned, or 0 -/
  foperand : Int
  /-- `FINDEX`: the out-of-range index, or 0 -/
  findex : Int
  deriving DecidableEq, Repr

/-- All fields 0: the record while status is not FAULTED (R20). -/
def FaultRecord.zero : FaultRecord := ⟨0, 0, 0, 0, 0⟩

/-- Memory (10_state.md R14, R15): the word cells whose value is not 0, as pairs of index and word,
indices strictly rising (log entry 3). -/
abbrev Memory := List (Nat × Int)

/-- The whole state of one block instance (the State tuple of 10_state.md), with the parameters of
00_scope.md R6. -/
structure State where
  /-- the parameters; nothing changes them (log entry 2) -/
  cfg : Config
  /-- `M[0 .. len-1]` (R14) -/
  mem : Memory
  /-- the loaded image length (R14) -/
  len : Nat
  /-- the program counter, a signed word (R16) -/
  pc : Int
  /-- the run-control register (R17) -/
  status : Status
  /-- the input latch (R18) -/
  inlat : Int
  /-- the output log, oldest first (R19) -/
  out : List Int
  /-- the fault record (R20) -/
  fault : FaultRecord
  deriving DecidableEq, Repr

/-- What a step raises (60_exceptions.md R86), with the arguments of the pseudocode's `raise`. It is a
synchronous exception of the block, and taking it is a next state (R90, log entry 4). -/
inductive FaultCause where
  /-- the fetched word's opcode is not in the map; the whole word -/
  | unknownOpcode (value : Int)
  /-- a resolved operand's mode digit is outside 0 and 1; the digit and the operand offset -/
  | unknownAddressingMode (value : Int) (operand : Nat)
  /-- an index is outside `[0, len)`; the index, and the operand offset or 0 for the fetch -/
  | outOfBounds (index : Int) (operand : Nat)
  /-- a destination operand has mode digit 1; its offset -/
  | immediateDestination (operand : Nat)
  /-- an Add or Multiply result does not fit; the instruction word -/
  | arithmeticOverflow (value : Int)
  deriving DecidableEq, Repr

/-- Where the step relation stops. The block's own faults are NOT here: taking one is a next state
with status FAULTED (log entry 4). -/
inductive Fault where
  /-- Raised by `step` alone, when the status is not RUNNING: no step exists in READY, HALTED or
  FAULTED (40_dispatch.md R59). Safe: the model stops where the spec says that no step exists
  (log entry 5). -/
  | noStep (status : Status)
  deriving DecidableEq, Repr

/-- Refusals. No instruction of this hardware is refused. -/
inductive Refusal where
  /-- For an arm of `exec` whose instruction has no meaning yet; no arm uses it. Safe. -/
  | notModelled (mnemonic : String)
  deriving DecidableEq, Repr

/-- The state at power-on for given parameters (10_state.md R26): that of LOAD of the empty image. -/
def State.powerOn (c : Config) : State where
  cfg := c
  mem := []
  len := 0
  pc := 0
  status := .ready
  inlat := 0
  out := []
  fault := .zero

/-- The machine right after reset (R26, 70_reset_and_hazards.md R106): power-on with the spec's
default parameters (log entry 2). -/
def State.reset : State := State.powerOn Config.default

end Sys2Proof.Machine
end

