-- ==== Sys2Proof/Machine/Ops.lean ====
section
/-! DEFINITION. The named operations over memory and the other state (spec/00_scope.md R8), and fault
entry (spec/60_exceptions.md R86, R87, R90). There is no return from a fault (R91). -/

namespace Sys2Proof.Machine

/-- The word of cell `a`; an unlisted cell holds 0. -/
def Memory.read : Memory → Nat → Int
  | [], _ => 0
  | (b, x) :: m, a => if a = b then x else Memory.read m a

/-- A cell put before the first cell with a greater index. -/
def Memory.insert : Memory → Nat → Int → Memory
  | [], a, v => [(a, v)]
  | (b, x) :: m, a, v => if a < b then (a, v) :: (b, x) :: m else (b, x) :: Memory.insert m a v

/-- The memory without cell `a`. -/
def Memory.erase (m : Memory) (a : Nat) : Memory := m.filter (fun c => decide (c.1 ≠ a))

/-- `M[a] <- v`, in canonical form: writing 0 unlists the cell. -/
def Memory.write (m : Memory) (a : Nat) (v : Int) : Memory :=
  if v = 0 then m.erase a else (m.erase a).insert a v

/-- The memory that holds the words of a list from cell `a` on, and 0 elsewhere. -/
def Memory.ofListFrom : Nat → List Int → Memory
  | _, [] => []
  | a, v :: vs => if v = 0 then Memory.ofListFrom (a + 1) vs else (a, v) :: Memory.ofListFrom (a + 1) vs

/-- The memory of an image (10_state.md R25: `M[i] = P[i]`). -/
def Memory.ofList (vs : List Int) : Memory := Memory.ofListFrom 0 vs

/-- Write the words of a list to consecutive cells from `a` on. -/
def Memory.writeList (m : Memory) (a : Nat) : List Int → Memory
  | [] => m
  | v :: vs => Memory.writeList (m.write a v) (a + 1) vs

/-- The canonical form from index `lo` on: indices strictly rising, no listed cell 0. -/
def Memory.wfFrom : Nat → Memory → Bool
  | _, [] => true
  | lo, (b, x) :: m => decide (lo ≤ b) && decide (x ≠ 0) && Memory.wfFrom (b + 1) m

/-- The canonical form of a memory (log entry 3). -/
def Memory.wf (m : Memory) : Bool := Memory.wfFrom 0 m

/-- `inBounds(i)`: `0 <= i < len` (00_scope.md R8, 20_memory.md R32). -/
def inBounds (s : State) (i : Int) : Bool := decide (0 ≤ i ∧ i < (s.len : Int))

/-- `MemRead(i, 1)`, used only after `inBounds(i)` (00_scope.md R8). -/
def memRead (s : State) (i : Int) : Int := s.mem.read i.toNat

/-- `MemWrite(i, 1, v)`, used only after `inBounds(i)` (00_scope.md R8). -/
def memWrite (s : State) (i v : Int) : State := { s with mem := s.mem.write i.toNat v }

/-- `pc <- target` (00_scope.md R8). -/
def setPc (s : State) (target : Int) : State := { s with pc := target }

/-- The fall-through `pc <- pc + n` (40_dispatch.md R68). -/
def advance (s : State) (n : Nat) : State := setPc s (s.pc + (n : Int))

/-- `out <- out ++ [v]` (00_scope.md R8). -/
def emit (s : State) (v : Int) : State := { s with out := s.out ++ [v] }

/-- `status <- HALTED` (45_halt.md R84). -/
def setHalted (s : State) : State := { s with status := .halted }

/-- The cause codes of FCAUSE (60_exceptions.md R86). -/
def FaultCause.code : FaultCause → Int
  | .unknownOpcode _ => 1
  | .unknownAddressingMode _ _ => 2
  | .outOfBounds _ _ => 3
  | .immediateDestination _ => 4
  | .arithmeticOverflow _ => 5

/-- FVALUE by cause (60_exceptions.md R87). -/
def FaultCause.value : FaultCause → Int
  | .unknownOpcode w => w
  | .unknownAddressingMode d _ => d
  | .outOfBounds _ _ => 0
  | .immediateDestination _ => 1
  | .arithmeticOverflow w => w

/-- FOPERAND by cause (60_exceptions.md R87). -/
def FaultCause.operand : FaultCause → Int
  | .unknownOpcode _ => 0
  | .unknownAddressingMode _ k => (k : Int)
  | .outOfBounds _ k => (k : Int)
  | .immediateDestination k => (k : Int)
  | .arithmeticOverflow _ => 0

/-- FINDEX by cause (60_exceptions.md R87). -/
def FaultCause.index : FaultCause → Int
  | .unknownOpcode _ => 0
  | .unknownAddressingMode _ _ => 0
  | .outOfBounds i _ => i
  | .immediateDestination _ => 0
  | .arithmeticOverflow _ => 0

/-- The record of a fault raised at `pc` (60_exceptions.md R87). -/
def FaultCause.record (f : FaultCause) (pc : Int) : FaultRecord where
  fcause := f.code
  fpc := pc
  fvalue := f.value
  foperand := f.operand
  findex := f.index

/-- Fault entry (60_exceptions.md R90): the status and the record are written, nothing else. -/
def raise (s : State) (f : FaultCause) : State :=
  { s with status := .faulted, fault := f.record s.pc }

/-- How an instruction ends (40_dispatch.md R66): it makes all its updates, or fault entry is its only
effect. Either way a next state. -/
def complete (s : State) : Except FaultCause State → Host.Outcome State Fault Refusal
  | .ok t => .next t
  | .error f => .next (raise s f)

/-- Fetch and decode (40_dispatch.md R60, R64): the bounds check on pc, the instruction word, its
opcode. -/
def fetchInstr (s : State) : Except FaultCause Instr :=
  if inBounds s s.pc then
    match decode (memRead s s.pc) with
    | .ok i => .ok i
    | .error (.unknownOpcode w) => .error (.unknownOpcode w)
  else .error (.outOfBounds s.pc 0)

end Sys2Proof.Machine
end

