-- ==== Sys2Proof/Machine/Flags.lean ====
section
/-! DEFINITION. The ALU. The block has no flags or condition codes (spec/10_state.md R21): overflow is
a fault or a wrap (41_arithmetic.md R71), and a comparison's result is the word 0 or 1
(44_compare.md R83). -/

namespace Sys2Proof.Machine

/-- `aluResult(exact)` for the instruction word `w` (41_arithmetic.md R71). -/
def aluResult (c : Config) (w exact : Int) : Except FaultCause Int :=
  if fitsW c.wordBits exact then .ok exact
  else
    match c.overflow with
    | .fault => .error (.arithmeticOverflow w)
    | .wrap => .ok (wrapW c.wordBits exact)

/-- 1 if `a < b` as signed integers, else 0 (44_compare.md R81). -/
def lessThanResult (a b : Int) : Int := if a < b then 1 else 0

/-- 1 if `a = b`, else 0 (44_compare.md R82). -/
def equalsResult (a b : Int) : Int := if a = b then 1 else 0

end Sys2Proof.Machine
end

