-- ==== Sys2Proof/Machine/Operands.lean ====
section
/-! DEFINITION. Operand resolution (spec/40_dispatch.md R61 to R63). `m` is the operand's mode digit and
`k` its offset; the checks come in the order of R65: mode digit, operand cell, named index. -/

namespace Sys2Proof.Machine

/-- `resolve(k)`: the memory index operand `k` names (R61). -/
def resolve (s : State) (m : Mode) (k : Nat) : Except FaultCause Int :=
  match m with
  | .immediate => .ok (s.pc + (k : Int))
  | .unknown d => .error (.unknownAddressingMode (d : Int) k)
  | .position =>
    if inBounds s (s.pc + (k : Int)) then .ok (memRead s (s.pc + (k : Int)))
    else .error (.outOfBounds (s.pc + (k : Int)) k)

/-- An index that must be in bounds for operand `k` (R62, R63). -/
def checkIndex (s : State) (i : Int) (k : Nat) : Except FaultCause Int :=
  if inBounds s i then .ok i else .error (.outOfBounds i k)

/-- `read(k)`: the value of read operand `k` (R62). -/
def readOperand (s : State) (m : Mode) (k : Nat) : Except FaultCause Int := do
  let i ← resolve s m k
  let j ← checkIndex s i k
  pure (memRead s j)

/-- `dest(k)`: the index destination operand `k` names, checked before the write (R63, D5). -/
def destOperand (s : State) (m : Mode) (k : Nat) : Except FaultCause Int :=
  if m = .immediate then .error (.immediateDestination k)
  else do
    let i ← resolve s m k
    checkIndex s i k

end Sys2Proof.Machine
end

