-- ==== Sys2Proof/Machine/Shapes.lean ====
section
/-! DEFINITION. The two shapes several instructions share (spec/40_dispatch.md R65): two operands, a
result and a destination; and a conditional jump. -/

namespace Sys2Proof.Machine

/-- `a <- read(1); b <- read(2); r <- result; d <- dest(3); M[d] <- r; pc <- pc + 4`. -/
def binaryOp (result : Int → Int → Except FaultCause Int) (m1 m2 m3 : Mode) (s : State) :
    Except FaultCause State := do
  let a ← readOperand s m1 1
  let b ← readOperand s m2 2
  let r ← result a b
  let d ← destOperand s m3 3
  pure (advance (memWrite s d r) 4)

/-- `c <- read(1)`; if the jump is taken `pc <- read(2)`, else `pc <- pc + 3` and operand 2 is not
evaluated (D20). -/
def condJump (taken : Int → Bool) (m1 m2 : Mode) (s : State) : Except FaultCause State := do
  let c ← readOperand s m1 1
  if taken c then do
    let t ← readOperand s m2 2
    pure (setPc s t)
  else pure (advance s 3)

end Sys2Proof.Machine
end

