-- ==== Sys2Proof/Machine/Arithmetic.lean ====
section
/-! DEFINITION. Add and Multiply (spec/41_arithmetic.md). -/

namespace Sys2Proof.Machine

/-- ADD (R72). An overflow records the instruction word. -/
def execAdd (m1 m2 m3 : Mode) (high : Nat) (s : State) : Host.Outcome State Fault Refusal :=
  complete s (binaryOp (fun a b => aluResult s.cfg (encode (.add m1 m2 m3 high)) (a + b)) m1 m2 m3 s)

/-- MUL (R73). -/
def execMultiply (m1 m2 m3 : Mode) (high : Nat) (s : State) : Host.Outcome State Fault Refusal :=
  complete s
    (binaryOp (fun a b => aluResult s.cfg (encode (.multiply m1 m2 m3 high)) (a * b)) m1 m2 m3 s)

end Sys2Proof.Machine
end

