-- ==== Sys2Proof/Machine/Compare.lean ====
section
/-! DEFINITION. LessThan and Equals (spec/44_compare.md). -/

namespace Sys2Proof.Machine

/-- LT (R81). A comparison cannot overflow. -/
def execLessThan (m1 m2 m3 : Mode) (s : State) : Host.Outcome State Fault Refusal :=
  complete s (binaryOp (fun a b => .ok (lessThanResult a b)) m1 m2 m3 s)

/-- EQ (R82). -/
def execEquals (m1 m2 m3 : Mode) (s : State) : Host.Outcome State Fault Refusal :=
  complete s (binaryOp (fun a b => .ok (equalsResult a b)) m1 m2 m3 s)

end Sys2Proof.Machine
end

