-- ==== Sys2Proof/Machine/Halt.lean ====
section
/-! DEFINITION. Halt (spec/45_halt.md). -/

namespace Sys2Proof.Machine

/-- HALT (R84): the status becomes HALTED; pc stays at the Halt word. -/
def execHalt (s : State) : Host.Outcome State Fault Refusal := complete s (.ok (setHalted s))

end Sys2Proof.Machine
end

