-- ==== Sys2Proof/Machine/Io.lean ====
section
/-! DEFINITION. Input and Output (spec/42_io.md). -/

namespace Sys2Proof.Machine

/-- `d <- dest(1); M[d] <- inlat; pc <- pc + 2`. -/
def inputOp (m1 : Mode) (s : State) : Except FaultCause State := do
  let d ← destOperand s m1 1
  pure (advance (memWrite s d s.inlat) 2)

/-- `a <- read(1); out <- out ++ [a]; pc <- pc + 2`. -/
def outputOp (m1 : Mode) (s : State) : Except FaultCause State := do
  let a ← readOperand s m1 1
  pure (advance (emit s a) 2)

/-- IN (R76): the input latch to the destination; every Input reads the same latch (R75). -/
def execInput (m1 : Mode) (s : State) : Host.Outcome State Fault Refusal := complete s (inputOp m1 s)

/-- OUT (R77): the operand to the end of the output log. -/
def execOutput (m1 : Mode) (s : State) : Host.Outcome State Fault Refusal :=
  complete s (outputOp m1 s)

end Sys2Proof.Machine
end

