-- ==== Sys2Proof/Machine/Jumps.lean ====
section
/-! DEFINITION. JumpIfTrue and JumpIfFalse (spec/43_jumps.md). -/

namespace Sys2Proof.Machine

/-- JT (R78): taken when the condition is not 0. -/
def execJumpIfTrue (m1 m2 : Mode) (s : State) : Host.Outcome State Fault Refusal :=
  complete s (condJump (fun c => decide (c ≠ 0)) m1 m2 s)

/-- JF (R79): taken when the condition is 0. -/
def execJumpIfFalse (m1 m2 : Mode) (s : State) : Host.Outcome State Fault Refusal :=
  complete s (condJump (fun c => decide (c = 0)) m1 m2 s)

end Sys2Proof.Machine
end

