-- ==== Sys2Proof/Machine/Dispatch.lean ====
section
/-! DEFINITION. Dispatch (spec/40_dispatch.md R64): one arm per instruction. -/

namespace Sys2Proof.Machine

def exec (i : Instr) (s : State) : Host.Outcome State Fault Refusal :=
  match i with
  | .add m1 m2 m3 high => Sys2Proof.Machine.execAdd m1 m2 m3 high s
  | .multiply m1 m2 m3 high => Sys2Proof.Machine.execMultiply m1 m2 m3 high s
  | .input m1 _ => Sys2Proof.Machine.execInput m1 s
  | .output m1 _ => Sys2Proof.Machine.execOutput m1 s
  | .jumpIfTrue m1 m2 _ => Sys2Proof.Machine.execJumpIfTrue m1 m2 s
  | .jumpIfFalse m1 m2 _ => Sys2Proof.Machine.execJumpIfFalse m1 m2 s
  | .lessThan m1 m2 m3 _ => Sys2Proof.Machine.execLessThan m1 m2 m3 s
  | .equals m1 m2 m3 _ => Sys2Proof.Machine.execEquals m1 m2 m3 s
  | .halt _ => Sys2Proof.Machine.execHalt s

end Sys2Proof.Machine
end

