-- ==== Sys2Proof/Machine/Step.lean ====
section
/-! DEFINITION. The step (spec/40_dispatch.md R59, R60), and the placing of one instruction where the
next step fetches. -/

namespace Sys2Proof.Machine

/-- One step: only when RUNNING (R59), one whole instruction. A fault of fetch or decode is fault entry
(60_exceptions.md R90). In READY, HALTED and FAULTED no step exists (log entry 5). -/
def step (s : State) : Host.Outcome State Fault Refusal :=
  match s.status with
  | .running =>
    match fetchInstr s with
    | .ok i => exec i s
    | .error f => .next (raise s f)
  | .ready => .fault (.noStep .ready)
  | .halted => .fault (.noStep .halted)
  | .faulted => .fault (.noStep .faulted)

/-- `s` with an instruction given as bits stored where the next step fetches (log entries 6 and 8): its
words at pc, the image long enough to hold them, and the status RUNNING. A negative pc addresses
nothing, so it becomes 0. -/
def State.withFetchWord (s : State) (nbits w : Nat) : State :=
  { s with
    mem := s.mem.writeList s.pc.toNat (wordsOfBits s.cfg.wordBits nbits w)
    len := max s.len (s.pc.toNat + 4)
    pc := (s.pc.toNat : Int)
    status := .running }

end Sys2Proof.Machine
end

