-- ==== Sys2Proof/Machine/Assembler.lean ====
section
/-! DEFINITION. The spec's own assembler notation and its encoding (spec/30_encoding.md R57, R58, D14).
No step depends on it. -/

namespace Sys2Proof.Machine

/-- A read operand as written: `n` for Position, `#n` for Immediate (R57). -/
inductive AsmSource where
  | cell (n : Int)
  | literal (n : Int)
  deriving DecidableEq, Repr

/-- A line of assembly (R57): the nine mnemonics, `.word v`, and the pseudo-instructions JMP, MOV and
NOP. A destination `-> n` is the index `n`; the notation has no Immediate destination. -/
inductive AsmLine where
  | add (a b : AsmSource) (d : Int)
  | mul (a b : AsmSource) (d : Int)
  | inp (d : Int)
  | out (a : AsmSource)
  | jt (c t : AsmSource)
  | jf (c t : AsmSource)
  | lt (a b : AsmSource) (d : Int)
  | eq (a b : AsmSource) (d : Int)
  | halt
  | word (v : Int)
  | jmp (t : AsmSource)
  | mov (a : AsmSource) (d : Int)
  | nop
  deriving DecidableEq, Repr

/-- The mode of a read operand: 1 for a `#` operand, 0 otherwise (R58). -/
def AsmSource.mode : AsmSource → Mode
  | .cell _ => .position
  | .literal _ => .immediate

/-- The number written, which the operand cell holds (R58). -/
def AsmSource.number : AsmSource → Int
  | .cell n => n
  | .literal n => n

/-- A pseudo-instruction as the line it stands for (R57); any other line as it is. -/
def AsmLine.expand : AsmLine → AsmLine
  | .jmp t => .jt (.literal 1) t
  | .mov a d => .add a (.literal 0) d
  | .nop => .jt (.literal 0) (.literal 0)
  | l => l

/-- The instruction of a line without pseudo-instruction, unused digits 0 (R58); none for `.word`. -/
def AsmLine.instr? : AsmLine → Option Instr
  | .add a b _ => some (.add a.mode b.mode .position 0)
  | .mul a b _ => some (.multiply a.mode b.mode .position 0)
  | .inp _ => some (.input .position 0)
  | .out a => some (.output a.mode 0)
  | .jt c t => some (.jumpIfTrue c.mode t.mode 0)
  | .jf c t => some (.jumpIfFalse c.mode t.mode 0)
  | .lt a b _ => some (.lessThan a.mode b.mode .position 0)
  | .eq a b _ => some (.equals a.mode b.mode .position 0)
  | .halt => some (.halt 0)
  | .word _ => none
  | .jmp _ => none
  | .mov _ _ => none
  | .nop => none

/-- The operand cells of a line in order, or the word of `.word` (R58). -/
def AsmLine.cells : AsmLine → List Int
  | .add a b d => [a.number, b.number, d]
  | .mul a b d => [a.number, b.number, d]
  | .inp d => [d]
  | .out a => [a.number]
  | .jt c t => [c.number, t.number]
  | .jf c t => [c.number, t.number]
  | .lt a b d => [a.number, b.number, d]
  | .eq a b d => [a.number, b.number, d]
  | .halt => []
  | .word v => [v]
  | .jmp _ => []
  | .mov _ _ => []
  | .nop => []

/-- The words of a line: the instruction word, then the operand cells (R58). -/
def AsmLine.assemble (l : AsmLine) : List Int :=
  match l.expand.instr? with
  | some i => encode i :: l.expand.cells
  | none => l.expand.cells

end Sys2Proof.Machine
end

