-- ==== Sys2Proof/Machine/HostOps.lean ====
section
/-! DEFINITION. The host interface (spec/60_exceptions.md R94, R95, R101; spec/70_reset_and_hazards.md
R105 to R108; the host's access rights of spec/10_state.md R23): each operation as a function of the block's state, the output event a step presents,
and a session of one host with one block. -/

namespace Sys2Proof.Machine

/-- Why an operation is refused (R94). The spec says only "refused", with no state change and a host
error; the reasons are the model's names for its conditions. -/
inductive HostError where
  /-- LOAD: `length(P) > MEM_WORDS` -/
  | imageTooLong
  /-- the operation is not allowed in this status -/
  | wrongStatus (status : Status)
  /-- HOST_READ, HOST_WRITE: `not inBounds(i)` -/
  | outOfRange (index : Int)
  /-- a number given as a word does not fit W bits (log entry 10) -/
  | notAWord (value : Int)
  /-- after ABANDON only LOAD may be issued (log entry 7) -/
  | abandoned
  deriving DecidableEq, Repr

/-- What the host receives. -/
inductive HostReply where
  /-- the operation took effect and returns nothing -/
  | done
  /-- HOST_READ: the cell's word; the latch read: `inlat` -/
  | word (v : Int)
  /-- READ_STATE: status, pc, len and the fault record -/
  | state (status : Status) (pc : Int) (len : Nat) (fault : FaultRecord)
  /-- RESULT: the output log and `M[0..len-1]` -/
  | result (out : List Int) (memory : List Int)
  /-- an output event: its number and its value (R101) -/
  | event (number : Nat) (value : Int)
  /-- refused: no state change -/
  | refused (e : HostError)
  deriving DecidableEq, Repr

/-- The two-bit code of `status` (10_state.md R17, D9). -/
def Status.code : Status → BitVec 2
  | .ready => 0
  | .running => 1
  | .halted => 2
  | .faulted => 3

/-- `M[0 .. len-1]` as a sequence. -/
def memoryImage (s : State) : List Int := (List.range s.len).map s.mem.read

/-- The state after an accepted LOAD (10_state.md R25): every piece of state but the parameters. -/
def loadState (P : List Int) (s : State) : State where
  cfg := s.cfg
  mem := Memory.ofList P
  len := P.length
  pc := 0
  status := .ready
  inlat := 0
  out := []
  fault := .zero

/-- The first number of a list that is not a W-bit word, if any. -/
def firstNotAWord (W : Nat) (P : List Int) : Option Int := P.find? (fun v => !fitsW W v)

/-- `LOAD(P)` (R94, 70_reset_and_hazards.md R105): accepted in any status. -/
def hostLoad (P : List Int) (s : State) : State × HostReply :=
  if s.cfg.memWords < P.length then (s, .refused .imageTooLong)
  else
    match firstNotAWord s.cfg.wordBits P with
    | some v => (s, .refused (.notAWord v))
    | none => (loadState P s, .done)

/-- The host may access memory in READY and HALTED only (R94, D12). -/
def hostAccessAllowed : Status → Bool
  | .ready => true
  | .halted => true
  | .running => false
  | .faulted => false

/-- `HOST_READ(i)` (R94). -/
def hostRead (i : Int) (s : State) : State × HostReply :=
  if hostAccessAllowed s.status then
    if inBounds s i then (s, .word (memRead s i)) else (s, .refused (.outOfRange i))
  else (s, .refused (.wrongStatus s.status))

/-- `HOST_WRITE(i, v)` (R94). -/
def hostWrite (i v : Int) (s : State) : State × HostReply :=
  if hostAccessAllowed s.status then
    if inBounds s i then
      if fitsW s.cfg.wordBits v then (memWrite s i v, .done) else (s, .refused (.notAWord v))
    else (s, .refused (.outOfRange i))
  else (s, .refused (.wrongStatus s.status))

/-- `START(v)` (R94, 70_reset_and_hazards.md R107): pc is not changed. -/
def hostStart (v : Int) (s : State) : State × HostReply :=
  if s.status = .ready then
    if fitsW s.cfg.wordBits v then ({ s with inlat := v, status := .running }, .done)
    else (s, .refused (.notAWord v))
  else (s, .refused (.wrongStatus s.status))

/-- `READ_STATE` (R94, R104): never refused. -/
def hostReadState (s : State) : State × HostReply := (s, .state s.status s.pc s.len s.fault)

/-- The host's read of the input latch, in any status (10_state.md R23: `inlat`, host reads "always").
R94's table names no operation that returns the latch, so this one is the model's (log entry 16). -/
def hostReadLatch (s : State) : State × HostReply := (s, .word s.inlat)

/-- `RESULT` (R94, 40_dispatch.md R70, R92). -/
def hostResult (s : State) : State × HostReply :=
  if s.status = .halted then (s, .result s.out (memoryImage s))
  else (s, .refused (.wrongStatus s.status))

/-- `ABANDON` (R94): no step of the block is undone, and the block's state does not change. -/
def hostAbandon (s : State) : State × HostReply :=
  if s.status = .running then (s, .done) else (s, .refused (.wrongStatus s.status))

/-- The operations the host can issue: those of R94, and the read of the latch (R23, log entry 16). -/
inductive HostOp where
  | load (image : List Int)
  | hostRead (index : Int)
  | hostWrite (index value : Int)
  | start (value : Int)
  | readState
  | readLatch
  | result
  | abandon
  deriving DecidableEq, Repr

/-- The effect of one operation on the block and its reply. -/
def hostApply (op : HostOp) (s : State) : State × HostReply :=
  match op with
  | .load P => hostLoad P s
  | .hostRead i => hostRead i s
  | .hostWrite i v => hostWrite i v s
  | .start v => hostStart v s
  | .readState => hostReadState s
  | .readLatch => hostReadLatch s
  | .result => hostResult s
  | .abandon => hostAbandon s

/-- The output event the next step presents to the host, if it completes an Output: the 0-based count
of outputs before it, and the word (R101, D11, log entry 14). -/
def stepEvent (s : State) : Option (Nat × Int) :=
  match step s with
  | .next t => (t.out.drop s.out.length).head?.map (fun v => (s.out.length, v))
  | .fault _ => none
  | .refused _ => none

/-- One host with one block. `abandoned` is the host's side: the host has stopped observing the run
(R94 ABANDON). -/
structure Session where
  block : State
  abandoned : Bool
  deriving DecidableEq, Repr

/-- A move of a session: the block takes a step, or the host issues an operation. -/
inductive Move where
  | step
  | host (op : HostOp)
  deriving DecidableEq, Repr

/-- The host issues an operation: after ABANDON only LOAD (R94, log entry 7). -/
def sessionHost (op : HostOp) (ss : Session) : Session × HostReply :=
  match op with
  | .load P =>
    match hostLoad P ss.block with
    | (s, .done) => (⟨s, false⟩, .done)
    | (s, r) => (⟨s, ss.abandoned⟩, r)
  | .abandon =>
    if ss.abandoned then (ss, .refused .abandoned)
    else
      match hostAbandon ss.block with
      | (s, .done) => (⟨s, true⟩, .done)
      | (s, r) => (⟨s, false⟩, r)
  | op =>
    if ss.abandoned then (ss, .refused .abandoned)
    else (⟨(hostApply op ss.block).1, false⟩, (hostApply op ss.block).2)

/-- The block takes a step, and the host receives its output event unless it has stopped observing. -/
def sessionStep (ss : Session) : Session × Option HostReply :=
  match step ss.block with
  | .next t =>
    (⟨t, ss.abandoned⟩,
      if ss.abandoned then none else (stepEvent ss.block).map (fun e => .event e.1 e.2))
  | .fault _ => (ss, none)
  | .refused _ => (ss, none)

/-- One move of a session, and what the host receives. -/
def sessionMove (m : Move) (ss : Session) : Session × Option HostReply :=
  match m with
  | .step => sessionStep ss
  | .host op => ((sessionHost op ss).1, some (sessionHost op ss).2)

end Sys2Proof.Machine
end

