-- ==== Sys2Proof/Safety.lean ====
section
/-! DEFINITION. The terms claims use: the machine's invariant, what an operand's forms mean as
relations on the state (independent of the functions that compute them), which states a program
cannot tell apart, and how a run ends. -/

namespace Sys2Proof.Machine

/-- A word of the machine's width (spec/00_scope.md R7). -/
abbrev IsWord (s : State) (v : Int) : Prop := minWord s.cfg.wordBits ≤ v ∧ v ≤ maxWord s.cfg.wordBits

/-- What holds in every state a session reaches: the parameters meet R6's constraint; every value is a
word; memory is canonical and lists no cell at or above `len` (R14, R15); before START nothing has
moved (R25); a HALTED block's pc is in the image (R84); the fault record is zero unless FAULTED (R20)
and names the faulting step's pc when FAULTED (R87, R90). -/
structure Inv (s : State) : Prop where
  config : configWellFormed s.cfg = true
  len_le : s.len ≤ s.cfg.memWords
  mem_wf : Memory.wf s.mem = true
  mem_below : ∀ c ∈ s.mem, c.1 < s.len
  mem_word : ∀ c ∈ s.mem, IsWord s c.2
  pc_word : IsWord s s.pc
  inlat_word : IsWord s s.inlat
  out_word : ∀ v ∈ s.out, IsWord s v
  fcause_word : IsWord s s.fault.fcause
  fpc_word : IsWord s s.fault.fpc
  fvalue_word : IsWord s s.fault.fvalue
  foperand_word : IsWord s s.fault.foperand
  findex_word : IsWord s s.fault.findex
  ready_start : s.status = .ready → s.pc = 0 ∧ s.inlat = 0 ∧ s.out = []
  halted_pc : s.status = .halted → 0 ≤ s.pc ∧ s.pc < (s.len : Int)
  fault_zero : s.status ≠ .faulted → s.fault = .zero
  fault_entry : s.status = .faulted →
    1 ≤ s.fault.fcause ∧ s.fault.fcause ≤ 5 ∧ s.fault.fpc = s.pc ∧
      0 ≤ s.fault.foperand ∧ s.fault.foperand ≤ 3

/-- An index the block may access (20_memory.md R32). -/
abbrev InImage (s : State) (i : Int) : Prop := 0 ≤ i ∧ i < (s.len : Int)

/-- The operand cell `M[pc+k]` (30_encoding.md R44). -/
def operandCell (s : State) (k : Nat) : Int := memRead s (s.pc + (k : Int))

/-- Operand `k` with mode `m` can be read and its value is `v` (30_encoding.md R48: `M[M[pc+k]]` in
Position mode, `M[pc+k]` in Immediate mode). -/
def ReadsAs (s : State) (m : Mode) (k : Nat) (v : Int) : Prop :=
  InImage s (s.pc + (k : Int)) ∧
    ((m = .immediate ∧ v = operandCell s k) ∨
      (m = .position ∧ InImage s (operandCell s k) ∧ v = memRead s (operandCell s k)))

/-- Reading operand `k` with mode `m` raises `f` (the exception lists of 41_arithmetic.md R72 and
42_io.md R77). -/
def ReadRaises (s : State) (m : Mode) (k : Nat) (f : FaultCause) : Prop :=
  (∃ d, m = .unknown d ∧ f = .unknownAddressingMode (d : Int) k) ∨
    ((m = .position ∨ m = .immediate) ∧ ¬ InImage s (s.pc + (k : Int)) ∧
      f = .outOfBounds (s.pc + (k : Int)) k) ∨
    (m = .position ∧ InImage s (s.pc + (k : Int)) ∧ ¬ InImage s (operandCell s k) ∧
      f = .outOfBounds (operandCell s k) k)

/-- Destination operand `k` with mode `m` names the cell `d` (30_encoding.md R48: cell `M[pc+k]`). -/
def WritesTo (s : State) (m : Mode) (k : Nat) (d : Int) : Prop :=
  m = .position ∧ InImage s (s.pc + (k : Int)) ∧ d = operandCell s k ∧ InImage s d

/-- Resolving destination operand `k` with mode `m` raises `f` (the exception lists of
41_arithmetic.md R72 and 42_io.md R76). -/
def WriteRaises (s : State) (m : Mode) (k : Nat) (f : FaultCause) : Prop :=
  (∃ d, m = .unknown d ∧ f = .unknownAddressingMode (d : Int) k) ∨
    (m = .immediate ∧ f = .immediateDestination k) ∨
    (m = .position ∧ ¬ InImage s (s.pc + (k : Int)) ∧ f = .outOfBounds (s.pc + (k : Int)) k) ∨
    (m = .position ∧ InImage s (s.pc + (k : Int)) ∧ ¬ InImage s (operandCell s k) ∧
      f = .outOfBounds (operandCell s k) k)

/-- The cell an instruction stores to: the index of its destination operand, if it has one and it
resolves (40_dispatch.md R63; the function the meanings use). -/
def storeTarget (i : Instr) (s : State) : Option Int :=
  match i with
  | .add _ _ m3 _ => (destOperand s m3 3).toOption
  | .multiply _ _ m3 _ => (destOperand s m3 3).toOption
  | .lessThan _ _ m3 _ => (destOperand s m3 3).toOption
  | .equals _ _ m3 _ => (destOperand s m3 3).toOption
  | .input m1 _ => (destOperand s m1 1).toOption
  | .output _ _ => none
  | .jumpIfTrue _ _ _ => none
  | .jumpIfFalse _ _ _ => none
  | .halt _ => none

/-- The ALU gives the word `v` for the exact result `exact`: the result itself where it fits, its wrapping
where it does not and the policy is WRAP (41_arithmetic.md R71). -/
def AluGives (s : State) (exact v : Int) : Prop :=
  (IsWord s exact ∧ v = exact) ∨
    (¬ IsWord s exact ∧ s.cfg.overflow = .wrap ∧ v = wrapW s.cfg.wordBits exact)

/-- The operands of a three-operand instruction are read as `a` and `b`, its destination is cell `d`, and
`a`, `b` stand in the relation given. -/
def StoresFrom (s : State) (m1 m2 m3 : Mode) (d : Int) (rel : Int → Int → Prop) : Prop :=
  ∃ a b, ReadsAs s m1 1 a ∧ ReadsAs s m2 2 b ∧ WritesTo s m3 3 d ∧ rel a b

/-- Instruction `i` raises nothing in `s` and stores the word `v` to cell `d` (41_arithmetic.md R72, R73;
42_io.md R76; 44_compare.md R81, R82). The other four instructions store nothing. -/
def StoresWord (i : Instr) (s : State) (d v : Int) : Prop :=
  match i with
  | .add m1 m2 m3 _ => StoresFrom s m1 m2 m3 d fun a b => AluGives s (a + b) v
  | .multiply m1 m2 m3 _ => StoresFrom s m1 m2 m3 d fun a b => AluGives s (a * b) v
  | .lessThan m1 m2 m3 _ => StoresFrom s m1 m2 m3 d fun a b => v = if a < b then 1 else 0
  | .equals m1 m2 m3 _ => StoresFrom s m1 m2 m3 d fun a b => v = if a = b then 1 else 0
  | .input m1 _ => WritesTo s m1 1 d ∧ v = s.inlat
  | .output _ _ => False
  | .jumpIfTrue _ _ _ => False
  | .jumpIfFalse _ _ _ => False
  | .halt _ => False

/-- A fault of operand resolution for one of the operand offsets given. -/
def OperandFault (offsets : List Nat) (f : FaultCause) : Prop :=
  ∃ k ∈ offsets, (∃ d, f = .unknownAddressingMode d k) ∨ ∃ i, f = .outOfBounds i k

/-- The faults each instruction can raise (60_exceptions.md R88): a jump's operand 2 only if the jump
is taken. -/
def MayRaise (i : Instr) (s : State) (f : FaultCause) : Prop :=
  match i with
  | .add _ _ _ _ => OperandFault [1, 2, 3] f ∨ f = .immediateDestination 3 ∨ ∃ w, f = .arithmeticOverflow w
  | .multiply _ _ _ _ => OperandFault [1, 2, 3] f ∨ f = .immediateDestination 3 ∨ ∃ w, f = .arithmeticOverflow w
  | .lessThan _ _ _ _ => OperandFault [1, 2, 3] f ∨ f = .immediateDestination 3
  | .equals _ _ _ _ => OperandFault [1, 2, 3] f ∨ f = .immediateDestination 3
  | .input _ _ => OperandFault [1] f ∨ f = .immediateDestination 1
  | .output _ _ => OperandFault [1] f
  | .jumpIfTrue m1 _ _ => OperandFault [1] f ∨ (OperandFault [2] f ∧ ∃ c, ReadsAs s m1 1 c ∧ c ≠ 0)
  | .jumpIfFalse m1 _ _ => OperandFault [1] f ∨ (OperandFault [2] f ∧ ReadsAs s m1 1 0)
  | .halt _ => False

/-- `t` is `s` after a write of `v` to cell `d` and a fall-through of `n` words: the cell holds `v`,
every other cell and every other piece of state is as before (41_arithmetic.md R74). -/
def StoredAndAdvanced (s t : State) (d v : Int) (n : Nat) : Prop :=
  memRead t d = v ∧ (∀ a : Nat, (a : Int) ≠ d → t.mem.read a = s.mem.read a) ∧
    t.pc = s.pc + (n : Int) ∧ t.out = s.out ∧ t.inlat = s.inlat ∧ t.status = s.status ∧
    t.len = s.len ∧ t.cfg = s.cfg ∧ t.fault = s.fault

/-- A program cannot tell `s1` from `s2`: they agree on everything a step reads (10_state.md R29) —
memory only below `len`; the output log and the fault record may differ. -/
def Alike (s1 s2 : State) : Prop :=
  s1.cfg = s2.cfg ∧ s1.len = s2.len ∧ s1.pc = s2.pc ∧ s1.status = s2.status ∧
    s1.inlat = s2.inlat ∧ ∀ a : Nat, a < s1.len → s1.mem.read a = s2.mem.read a

/-- `t` is reached from `s` by some number of steps. -/
def RunsTo (s t : State) : Prop := ∃ n : Nat, Host.Core.run Sys2Proof.core n s = .next t

/-- Outcome 1 of a run (40_dispatch.md R70): HALTED, in the final state `t`. -/
def HaltsIn (s t : State) : Prop := RunsTo s t ∧ t.status = .halted

/-- Outcome 2 of a run (R70): FAULTED, in the final state `t`. -/
def FaultsIn (s t : State) : Prop := RunsTo s t ∧ t.status = .faulted

/-- Outcome 3 of a run (R70): no step ever ends it. -/
def Diverges (s : State) : Prop :=
  ∀ n : Nat, ∃ t : State, Host.Core.run Sys2Proof.core n s = .next t ∧ t.status = .running

end Sys2Proof.Machine
end

