-- ==== Sys2Proof/Certificates/Slice0/Obligations.lean ====
section
/-! DEFINITION. The statements for the provers, in the order of the spec's files: encoding, operands,
the step, the instructions, frames, faults, the whole machine, the host interface. -/

open Sys2Proof Sys2Proof.Machine

/-! ### Encoding (30_encoding.md) -/

/-- Decoding the word of any well-formed instruction gives it back, with every mode digit and every
unread digit at every value (30_encoding.md sections 1 and 2). -/
def Obligations.DecodeEncodeRoundTrip : Prop :=
  ∀ i : Instr, i.wellFormed = true → decode (encode i) = .ok i

/-- Every word that decodes is the word of the well-formed instruction it decodes to, so no two words
are read as the same instruction and no digit is dropped. -/
def Obligations.EncodeDecodeRoundTrip : Prop :=
  ∀ (w : Int) (i : Instr), decode w = .ok i → encode i = w ∧ i.wellFormed = true

/-- R45: the decimal fields of a non-negative instruction word. -/
def Obligations.DecimalFieldsOfAWord : Prop :=
  ∀ w : Int, 0 ≤ w →
    opc w = Int.tmod w 100 ∧ 0 ≤ opc w ∧ opc w ≤ 99 ∧
      (∀ k : Nat, 0 ≤ modeDigit w k ∧ modeDigit w k ≤ 9) ∧
      w = opc w + 100 * modeDigit w 1 + 1000 * modeDigit w 2 + 10000 * modeDigit w 3
        + 100000 * Int.tdiv w 100000

/-- R49: a digit that the word does not have is 0 and selects Position mode. -/
def Obligations.AbsentDigitsSelectPosition : Prop :=
  ∀ (w : Int) (k : Nat), 1 ≤ k → k ≤ 3 → 0 ≤ w → w < ((10 ^ (k + 1) : Nat) : Int) →
    modeDigit w k = 0 ∧ modeOf w k = .position

/-- R51: exactly nine opcode values select an instruction, each the one named. -/
def Obligations.ExactlyNineOpcodes : Prop :=
  (∀ w : Int, (∃ i, decode w = .ok i) ↔ Int.tmod w 100 ∈ ([1, 2, 3, 4, 5, 6, 7, 8, 99] : List Int)) ∧
    ∀ p ∈ ([(1, .add), (2, .multiply), (3, .input), (4, .output), (5, .jumpIfTrue),
        (6, .jumpIfFalse), (7, .lessThan), (8, .equals), (99, .halt)] : List (Int × Opcode)),
      ∀ (w : Int) (i : Instr), decode w = .ok i → (i.opcode = p.2 ↔ Int.tmod w 100 = p.1)

/-- Every negative word is refused with UnknownOpcode of the whole word. The truncating remainder is
the spec's decision D4 (30_encoding.md section 2). -/
def Obligations.NegativeWordsAreNoInstruction : Prop :=
  ∀ w : Int, w < 0 → decode w = .error (.unknownOpcode w)

/-- The words of 95_test_vectors.md section 2.1 decode as that table says. -/
def Obligations.SampleWordsDecode : Prop :=
  decode 1 = .ok (.add .position .position .position 0) ∧
    decode 1002 = .ok (.multiply .position .immediate .position 0) ∧
    decode 1107 = .ok (.lessThan .immediate .immediate .position 0) ∧
    decode 11101 = .ok (.add .immediate .immediate .immediate 0) ∧
    decode 21105 = .ok (.jumpIfTrue .immediate .immediate 2) ∧
    decode 100001 = .ok (.add .position .position .position 1) ∧
    decode 99 = .ok (.halt 0) ∧ decode 299 = .ok (.halt 2) ∧
    decode 100 = .error (.unknownOpcode 100) ∧ decode 9 = .error (.unknownOpcode 9) ∧
    decode (-199) = .error (.unknownOpcode (-199))

/-- The operand kinds and lengths of the nine opcodes (30_encoding.md section 2, the table). -/
def Obligations.OperandsAndLengths : Prop :=
  (∀ o ∈ ([.add, .multiply, .lessThan, .equals] : List Opcode),
      o.operands = [.read, .read, .dest] ∧ o.length = 4) ∧
    (∀ o ∈ ([.jumpIfTrue, .jumpIfFalse] : List Opcode), o.operands = [.read, .read] ∧ o.length = 3) ∧
    (Opcode.input.operands = [.dest] ∧ Opcode.input.length = 2) ∧
    (Opcode.output.operands = [.read] ∧ Opcode.output.length = 2) ∧
    (Opcode.halt.operands = [] ∧ Opcode.halt.length = 1)

/-- Digits no instruction reads have no effect on what it does, but for the instruction word that an
ArithmeticOverflow records (decision D19; 30_encoding.md section 2). -/
def Obligations.UnreadDigitsHaveNoEffect : Prop :=
  ∀ (i : Instr) (high : Nat) (s t : State), exec i s = .next t →
    (∀ w, t ≠ raise s (.arithmeticOverflow w)) → exec (i.withHigh high) s = .next t

/-- A line of assembly that stands for an instruction assembles to its canonical word, which is below
100000 with the unread digits 0 and decodes to it, and one cell per operand (30_encoding.md section
3, the spec's own notation, D14). -/
def Obligations.AssembledLineDecodes : Prop :=
  ∀ (l : AsmLine) (i : Instr), l.expand.instr? = some i →
    ∃ (w : Int) (cells : List Int), l.assemble = w :: cells ∧ decode w = .ok i ∧ i.high = 0 ∧
      0 ≤ w ∧ w < 100000 ∧ cells = l.expand.cells ∧ cells.length = i.opcode.operands.length

/-! ### Operands (40_dispatch.md section 2) -/

/-- R62: `read(k)` is `M[pc+k]` in Immediate mode and `M[M[pc+k]]` in Position mode, and raises
exactly what the operand's checks give. -/
def Obligations.ReadOperandIsTheNamedCell : Prop :=
  ∀ (s : State) (m : Mode) (k : Nat),
    (∀ v, readOperand s m k = .ok v ↔ ReadsAs s m k v) ∧
      ∀ f, readOperand s m k = .error f ↔ ReadRaises s m k f

/-- `dest(k)` is the cell the operand cell names, and raises exactly what the checks give; Immediate
mode raises ImmediateDestination (the spec's decision D5). -/
def Obligations.DestOperandIsTheNamedCell : Prop :=
  ∀ (s : State) (m : Mode) (k : Nat),
    (∀ d, destOperand s m k = .ok d ↔ WritesTo s m k d) ∧
      ∀ f, destOperand s m k = .error f ↔ WriteRaises s m k f

/-! ### The step (40_dispatch.md) -/

/-- When the word at pc decodes to `i`, a step of a RUNNING block is `exec` of `i`, with nothing around
it (40_dispatch.md sections 1 and 3). -/
def Obligations.StepRunsTheDecodedInstruction : Prop :=
  ∀ (s : State) (i : Instr), s.status = .running → InImage s s.pc →
    decode (memRead s s.pc) = .ok i → step s = exec i s

/-- R64: dispatch by the opcode value, with UnknownOpcode for every value not listed. -/
def Obligations.DispatchByOpcode : Prop :=
  ∀ (s : State) (w : Int), s.status = .running → InImage s s.pc → memRead s s.pc = w →
    (Int.tmod w 100 = 1 → step s = execAdd (modeOf w 1) (modeOf w 2) (modeOf w 3) (digitsFrom w 5) s) ∧
    (Int.tmod w 100 = 2 → step s = execMultiply (modeOf w 1) (modeOf w 2) (modeOf w 3) (digitsFrom w 5) s) ∧
    (Int.tmod w 100 = 3 → step s = execInput (modeOf w 1) s) ∧
    (Int.tmod w 100 = 4 → step s = execOutput (modeOf w 1) s) ∧
    (Int.tmod w 100 = 5 → step s = execJumpIfTrue (modeOf w 1) (modeOf w 2) s) ∧
    (Int.tmod w 100 = 6 → step s = execJumpIfFalse (modeOf w 1) (modeOf w 2) s) ∧
    (Int.tmod w 100 = 7 → step s = execLessThan (modeOf w 1) (modeOf w 2) (modeOf w 3) s) ∧
    (Int.tmod w 100 = 8 → step s = execEquals (modeOf w 1) (modeOf w 2) (modeOf w 3) s) ∧
    (Int.tmod w 100 = 99 → step s = execHalt s) ∧
    (Int.tmod w 100 ∉ ([1, 2, 3, 4, 5, 6, 7, 8, 99] : List Int) →
      step s = .next (raise s (.unknownOpcode w)))

/-- R52: every other opcode value raises UnknownOpcode when fetched: 0, 9 to 98 and every negative
remainder. -/
def Obligations.IllegalOpcodesRaise : Prop :=
  ∀ s : State, s.status = .running → InImage s s.pc →
    (Int.tmod (memRead s s.pc) 100 = 0 ∨
      (9 ≤ Int.tmod (memRead s s.pc) 100 ∧ Int.tmod (memRead s s.pc) 100 ≤ 98) ∨
      Int.tmod (memRead s s.pc) 100 < 0) →
    step s = .next (raise s (.unknownOpcode (memRead s s.pc)))

/-- A pc outside the image faults at the fetch, with FPC and FINDEX the pc and FOPERAND 0; the faulted
state keeps everything else (that the check is at the fetch is decision D8). -/
def Obligations.FetchOutsideImageFaults : Prop :=
  ∀ s : State, s.status = .running → ¬ InImage s s.pc →
    step s = .next { s with status := .faulted, fault := ⟨3, s.pc, 0, 0, s.pc⟩ }

/-- R59: a step exists only when RUNNING, and then it ends in one of three ways: the instruction
completes, with at most its one destination cell and one output entry changed and the status RUNNING;
Halt; or a fault. -/
def Obligations.StepEndsInThreeWays : Prop :=
  (∀ s t : State, step s = .next t → s.status = .running) ∧
    ∀ s : State, s.status = .running → ∃ t, step s = .next t ∧
      ((t.status = .running ∧ ∃ i, decode (memRead s s.pc) = .ok i ∧
          (∀ a : Nat, storeTarget i s ≠ some (a : Int) → t.mem.read a = s.mem.read a) ∧
          (t.out = s.out ∨ ∃ v, t.out = s.out ++ [v])) ∨
        (t.status = .halted ∧ ∃ high, decode (memRead s s.pc) = .ok (.halt high)) ∨
        (t.status = .faulted ∧ ∃ f, t = raise s f))

/-- Where no step exists, the model answers the stop `noStep` with the status. That answer is the
model's choice (log entry 5); that no step exists is 40_dispatch.md section 1. -/
def Obligations.NoStepUnlessRunning : Prop :=
  ∀ s : State, s.status ≠ .running → step s = .fault (.noStep s.status)

/-- The new pc of an instruction: unchanged by a fault and by Halt, else the fall-through or, for a jump,
the value of its second operand (40_dispatch.md section 4). -/
def Obligations.NextPcIsFallThroughOrTarget : Prop :=
  ∀ (i : Instr) (s t : State), exec i s = .next t →
    (∃ f, t = raise s f) ∨
      (i.opcode = .halt ∧ t.pc = s.pc) ∨
      (i.opcode ≠ .halt ∧ t.pc = s.pc + (i.opcode.length : Int)) ∨
      ∃ m1 m2 high, (i = .jumpIfTrue m1 m2 high ∨ i = .jumpIfFalse m1 m2 high) ∧ ReadsAs s m2 2 t.pc

/-- A word stored to the cell that is fetched next is what the next step fetches, whichever instruction
stores it: no delay and no fence (20_memory.md sections 2 and 4). The first clause says where a storing
instruction completes with such a store and what it stores; the second is of every step that stored
there. -/
def Obligations.WrittenWordIsFetchedNext : Prop :=
  (∀ (s : State) (i : Instr) (v : Int), s.status = .running → InImage s s.pc →
      decode (memRead s s.pc) = .ok i → StoresWord i s (s.pc + (i.opcode.length : Int)) v →
      ∃ t, step s = .next t ∧ t.pc = s.pc + (i.opcode.length : Int) ∧ memRead t t.pc = v ∧
        (∀ j, decode v = .ok j → step t = exec j t) ∧
        (decode v = .error (.unknownOpcode v) → step t = .next (raise t (.unknownOpcode v)))) ∧
    ∀ (s t : State) (i j : Instr), step s = .next t → (∀ f, t ≠ raise s f) →
      decode (memRead s s.pc) = .ok i → storeTarget i s = some t.pc →
      decode (memRead t t.pc) = .ok j → step t = exec j t

/-! ### The instructions (41_arithmetic.md to 45_halt.md) -/

/-- The wrapped value is the unique word congruent to the exact one modulo `2^W` (00_scope.md section 5;
used under the WRAP policy of decision D3). -/
def Obligations.WrapIsTheCongruentWord : Prop :=
  ∀ (n : Nat) (v u : Int),
    u = wrapW (n + 1) v ↔
      minWord (n + 1) ≤ u ∧ u ≤ maxWord (n + 1) ∧ ((2 ^ (n + 1) : Nat) : Int) ∣ u - v

/-- R72: Add. Its encoding, its completion for every operand form, and its exceptions in the order
checked. The destination may be any cell, its own instruction word and operand cells included. -/
def Obligations.AddInstruction : Prop :=
  (∀ w : Int, 0 ≤ w → Int.tmod w 100 = 1 →
      decode w = .ok (.add (modeOf w 1) (modeOf w 2) (modeOf w 3) (digitsFrom w 5))) ∧
    (∀ n : Nat, wrapW (n + 1) (maxWord (n + 1) + 1) = minWord (n + 1) ∧
      wrapW (n + 1) (minWord (n + 1) + -1) = maxWord (n + 1)) ∧
    ∀ (s : State) (m1 m2 m3 : Mode) (high : Nat),
      (∀ a b d, ReadsAs s m1 1 a → ReadsAs s m2 2 b → WritesTo s m3 3 d → IsWord s (a + b) →
        ∃ t, exec (.add m1 m2 m3 high) s = .next t ∧ StoredAndAdvanced s t d (a + b) 4) ∧
      (∀ a b d, ReadsAs s m1 1 a → ReadsAs s m2 2 b → WritesTo s m3 3 d → ¬ IsWord s (a + b) →
        s.cfg.overflow = .wrap →
        ∃ t, exec (.add m1 m2 m3 high) s = .next t ∧
          StoredAndAdvanced s t d (wrapW s.cfg.wordBits (a + b)) 4) ∧
      (∀ f, ReadRaises s m1 1 f → exec (.add m1 m2 m3 high) s = .next (raise s f)) ∧
      (∀ a f, ReadsAs s m1 1 a → ReadRaises s m2 2 f →
        exec (.add m1 m2 m3 high) s = .next (raise s f)) ∧
      (∀ a b, ReadsAs s m1 1 a → ReadsAs s m2 2 b → ¬ IsWord s (a + b) → s.cfg.overflow = .fault →
        exec (.add m1 m2 m3 high) s =
          .next (raise s (.arithmeticOverflow (encode (.add m1 m2 m3 high))))) ∧
      (∀ a b f, ReadsAs s m1 1 a → ReadsAs s m2 2 b → (IsWord s (a + b) ∨ s.cfg.overflow = .wrap) →
        WriteRaises s m3 3 f → exec (.add m1 m2 m3 high) s = .next (raise s f))

/-- R73: Multiply, as Add with the product. -/
def Obligations.MultiplyInstruction : Prop :=
  (∀ w : Int, 0 ≤ w → Int.tmod w 100 = 2 →
      decode w = .ok (.multiply (modeOf w 1) (modeOf w 2) (modeOf w 3) (digitsFrom w 5))) ∧
    (∀ n : Nat, wrapW (n + 1) (minWord (n + 1) * -1) = minWord (n + 1) ∧
      wrapW (2 * n) (((2 ^ n : Nat) : Int) * ((2 ^ n : Nat) : Int)) = 0) ∧
    ∀ (s : State) (m1 m2 m3 : Mode) (high : Nat),
      (∀ a b d, ReadsAs s m1 1 a → ReadsAs s m2 2 b → WritesTo s m3 3 d → IsWord s (a * b) →
        ∃ t, exec (.multiply m1 m2 m3 high) s = .next t ∧ StoredAndAdvanced s t d (a * b) 4) ∧
      (∀ a b d, ReadsAs s m1 1 a → ReadsAs s m2 2 b → WritesTo s m3 3 d → ¬ IsWord s (a * b) →
        s.cfg.overflow = .wrap →
        ∃ t, exec (.multiply m1 m2 m3 high) s = .next t ∧
          StoredAndAdvanced s t d (wrapW s.cfg.wordBits (a * b)) 4) ∧
      (∀ f, ReadRaises s m1 1 f → exec (.multiply m1 m2 m3 high) s = .next (raise s f)) ∧
      (∀ a f, ReadsAs s m1 1 a → ReadRaises s m2 2 f →
        exec (.multiply m1 m2 m3 high) s = .next (raise s f)) ∧
      (∀ a b, ReadsAs s m1 1 a → ReadsAs s m2 2 b → ¬ IsWord s (a * b) → s.cfg.overflow = .fault →
        exec (.multiply m1 m2 m3 high) s =
          .next (raise s (.arithmeticOverflow (encode (.multiply m1 m2 m3 high))))) ∧
      (∀ a b f, ReadsAs s m1 1 a → ReadsAs s m2 2 b → (IsWord s (a * b) ∨ s.cfg.overflow = .wrap) →
        WriteRaises s m3 3 f → exec (.multiply m1 m2 m3 high) s = .next (raise s f))

/-- Input writes the latch to its destination and falls through by 2, and raises what its destination
raises; an Immediate destination is decision D5 (42_io.md section 2). -/
def Obligations.InputInstruction : Prop :=
  (∀ w : Int, 0 ≤ w → Int.tmod w 100 = 3 → decode w = .ok (.input (modeOf w 1) (digitsFrom w 3))) ∧
    ∀ (s : State) (m1 : Mode) (high : Nat),
      (∀ d, WritesTo s m1 1 d →
        ∃ t, exec (.input m1 high) s = .next t ∧ StoredAndAdvanced s t d s.inlat 2) ∧
      (∀ f, WriteRaises s m1 1 f → exec (.input m1 high) s = .next (raise s f))

/-- R75: the input channel is the latch: START writes it, no step changes it, every Input of the run
writes that same word, and no Input waits. -/
def Obligations.InputChannelIsTheLatch : Prop :=
  (∀ (s : State) (v : Int), s.status = .ready → IsWord s v → (hostStart v s).1.inlat = v) ∧
    (∀ (n : Nat) (s t : State), Host.Core.run Sys2Proof.core n s = .next t → t.inlat = s.inlat) ∧
    (∀ (n : Nat) (s u : State) (m1 : Mode) (high : Nat) (d : Int),
      Host.Core.run Sys2Proof.core n s = .next u → WritesTo u m1 1 d →
      ∃ t, exec (.input m1 high) u = .next t ∧ memRead t d = s.inlat) ∧
    ∀ (s : State) (m1 : Mode) (high : Nat), ∃ t, exec (.input m1 high) s = .next t

/-- R77: Output. Its encoding, its completion, and its exceptions; memory is not written. -/
def Obligations.OutputInstruction : Prop :=
  (∀ w : Int, 0 ≤ w → Int.tmod w 100 = 4 → decode w = .ok (.output (modeOf w 1) (digitsFrom w 3))) ∧
    ∀ (s : State) (m1 : Mode) (high : Nat),
      (∀ v, ReadsAs s m1 1 v →
        exec (.output m1 high) s = .next { s with out := s.out ++ [v], pc := s.pc + 2 }) ∧
      (∀ f, ReadRaises s m1 1 f → exec (.output m1 high) s = .next (raise s f))

/-- JumpIfTrue: taken on any value but 0, operand 2 evaluated only then (decision D20; 43_jumps.md
section 1). -/
def Obligations.JumpIfTrueInstruction : Prop :=
  (∀ w : Int, 0 ≤ w → Int.tmod w 100 = 5 →
      decode w = .ok (.jumpIfTrue (modeOf w 1) (modeOf w 2) (digitsFrom w 4))) ∧
    ∀ (s : State) (m1 m2 : Mode) (high : Nat),
      (∀ c p, ReadsAs s m1 1 c → c ≠ 0 → ReadsAs s m2 2 p →
        exec (.jumpIfTrue m1 m2 high) s = .next { s with pc := p }) ∧
      (ReadsAs s m1 1 0 → exec (.jumpIfTrue m1 m2 high) s = .next { s with pc := s.pc + 3 }) ∧
      (∀ f, ReadRaises s m1 1 f → exec (.jumpIfTrue m1 m2 high) s = .next (raise s f)) ∧
      (∀ c f, ReadsAs s m1 1 c → c ≠ 0 → ReadRaises s m2 2 f →
        exec (.jumpIfTrue m1 m2 high) s = .next (raise s f))

/-- R79: JumpIfFalse: taken on 0 only, operand 2 not evaluated on fall-through, any word a target. -/
def Obligations.JumpIfFalseInstruction : Prop :=
  (∀ w : Int, 0 ≤ w → Int.tmod w 100 = 6 →
      decode w = .ok (.jumpIfFalse (modeOf w 1) (modeOf w 2) (digitsFrom w 4))) ∧
    ∀ (s : State) (m1 m2 : Mode) (high : Nat),
      (∀ p, ReadsAs s m1 1 0 → ReadsAs s m2 2 p →
        exec (.jumpIfFalse m1 m2 high) s = .next { s with pc := p }) ∧
      (∀ c, ReadsAs s m1 1 c → c ≠ 0 →
        exec (.jumpIfFalse m1 m2 high) s = .next { s with pc := s.pc + 3 }) ∧
      (∀ f, ReadRaises s m1 1 f → exec (.jumpIfFalse m1 m2 high) s = .next (raise s f)) ∧
      (∀ f, ReadsAs s m1 1 0 → ReadRaises s m2 2 f →
        exec (.jumpIfFalse m1 m2 high) s = .next (raise s f))

/-- A taken jump to a target outside the image completes, and the next step faults there with FPC and
FINDEX the target (43_jumps.md section 3; where the target is checked is decision D8). -/
def Obligations.BadJumpTargetFaultsAtNextFetch : Prop :=
  ∀ (s : State) (m1 m2 : Mode) (high : Nat) (c p : Int), s.status = .running → InImage s s.pc →
    ((decode (memRead s s.pc) = .ok (.jumpIfTrue m1 m2 high) ∧ c ≠ 0) ∨
      (decode (memRead s s.pc) = .ok (.jumpIfFalse m1 m2 high) ∧ c = 0)) →
    ReadsAs s m1 1 c → ReadsAs s m2 2 p → ¬ InImage s p →
    ∃ t u, step s = .next t ∧ t = { s with pc := p } ∧ step t = .next u ∧ u.status = .faulted ∧
      u.fault.fcause = 3 ∧ u.fault.fpc = p ∧ u.fault.findex = p ∧ u.mem = s.mem ∧ u.out = s.out

/-- R81: LessThan. Its encoding, its completion with the signed comparison, and its exceptions. -/
def Obligations.LessThanInstruction : Prop :=
  (∀ w : Int, 0 ≤ w → Int.tmod w 100 = 7 →
      decode w = .ok (.lessThan (modeOf w 1) (modeOf w 2) (modeOf w 3) (digitsFrom w 5))) ∧
    ∀ (s : State) (m1 m2 m3 : Mode) (high : Nat),
      (∀ a b d, ReadsAs s m1 1 a → ReadsAs s m2 2 b → WritesTo s m3 3 d →
        ∃ t, exec (.lessThan m1 m2 m3 high) s = .next t ∧
          StoredAndAdvanced s t d (if a < b then 1 else 0) 4) ∧
      (∀ f, ReadRaises s m1 1 f → exec (.lessThan m1 m2 m3 high) s = .next (raise s f)) ∧
      (∀ a f, ReadsAs s m1 1 a → ReadRaises s m2 2 f →
        exec (.lessThan m1 m2 m3 high) s = .next (raise s f)) ∧
      (∀ a b f, ReadsAs s m1 1 a → ReadsAs s m2 2 b → WriteRaises s m3 3 f →
        exec (.lessThan m1 m2 m3 high) s = .next (raise s f))

/-- R82: Equals, as LessThan with equality of whole words. -/
def Obligations.EqualsInstruction : Prop :=
  (∀ w : Int, 0 ≤ w → Int.tmod w 100 = 8 →
      decode w = .ok (.equals (modeOf w 1) (modeOf w 2) (modeOf w 3) (digitsFrom w 5))) ∧
    ∀ (s : State) (m1 m2 m3 : Mode) (high : Nat),
      (∀ a b d, ReadsAs s m1 1 a → ReadsAs s m2 2 b → WritesTo s m3 3 d →
        ∃ t, exec (.equals m1 m2 m3 high) s = .next t ∧
          StoredAndAdvanced s t d (if a = b then 1 else 0) 4) ∧
      (∀ f, ReadRaises s m1 1 f → exec (.equals m1 m2 m3 high) s = .next (raise s f)) ∧
      (∀ a f, ReadsAs s m1 1 a → ReadRaises s m2 2 f →
        exec (.equals m1 m2 m3 high) s = .next (raise s f)) ∧
      (∀ a b f, ReadsAs s m1 1 a → ReadsAs s m2 2 b → WriteRaises s m3 3 f →
        exec (.equals m1 m2 m3 high) s = .next (raise s f))

/-- R83: a LessThan or Equals that completes writes exactly 0 or 1 to its destination, by the signed
order or the equality of its operands, and changes no other cell. -/
def Obligations.CompareWritesZeroOrOne : Prop :=
  ∀ (m1 m2 m3 : Mode) (high : Nat) (i : Instr) (s t : State),
    (i = .lessThan m1 m2 m3 high ∨ i = .equals m1 m2 m3 high) → exec i s = .next t →
    (∀ f, t ≠ raise s f) →
    ∃ d a b, storeTarget i s = some d ∧ ReadsAs s m1 1 a ∧ ReadsAs s m2 2 b ∧
      (memRead t d = 0 ∨ memRead t d = 1) ∧
      (i = .lessThan m1 m2 m3 high → (memRead t d = 1 ↔ a < b)) ∧
      (i = .equals m1 m2 m3 high → (memRead t d = 1 ↔ a = b)) ∧
      ∀ c : Nat, storeTarget i s ≠ some (c : Int) → t.mem.read c = s.mem.read c

/-- R84: Halt. Any non-negative word whose remainder is 99 is Halt, no negative word is; executing it
changes the status to HALTED and nothing else. -/
def Obligations.HaltInstruction : Prop :=
  (∀ w : Int, 0 ≤ w → Int.tmod w 100 = 99 → decode w = .ok (.halt (digitsFrom w 2))) ∧
    (∀ (w : Int) (high : Nat), w < 0 → decode w ≠ .ok (.halt high)) ∧
    ∀ (s : State) (high : Nat), exec (.halt high) s = .next { s with status := .halted }

/-- R85: after Halt no step is taken and the result is the output log and the final memory; Halt is the
only way a run ends successfully; past the image and at an illegal opcode the step faults. -/
def Obligations.OnlyHaltEndsSuccessfully : Prop :=
  (∀ s : State, s.status = .halted →
      (∀ t, step s ≠ .next t) ∧ hostResult s = (s, .result s.out (memoryImage s))) ∧
    (∀ s t : State, step s = .next t → t.status = .halted →
      InImage s s.pc ∧ (∃ high, decode (memRead s s.pc) = .ok (.halt high)) ∧
        t = { s with status := .halted }) ∧
    (∀ s : State, s.status = .running → (s.len : Int) ≤ s.pc →
      step s = .next (raise s (.outOfBounds s.pc 0))) ∧
    ∀ (s : State) (w : Int), s.status = .running → InImage s s.pc →
      decode (memRead s s.pc) = .error (.unknownOpcode w) →
      step s = .next (raise s (.unknownOpcode (memRead s s.pc)))

/-! ### Frames -/

/-- What Add, Multiply, LessThan, Equals and Input leave unchanged: every cell but the destination, the
length, the latch, the log and the parameters; the status and the fault record unless the instruction
faults, and then fault entry is all it does. -/
def Obligations.StoringInstructionsFrame : Prop :=
  ∀ (i : Instr) (s t : State),
    i.opcode ∈ ([.add, .multiply, .lessThan, .equals, .input] : List Opcode) → exec i s = .next t →
    (∀ a : Nat, storeTarget i s ≠ some (a : Int) → t.mem.read a = s.mem.read a) ∧
      t.cfg = s.cfg ∧ t.len = s.len ∧ t.inlat = s.inlat ∧ t.out = s.out ∧
      ((t.status = s.status ∧ t.fault = s.fault) ∨ ∃ f, t = raise s f)

/-- What Output, JumpIfTrue, JumpIfFalse and Halt leave unchanged: every cell of memory, the length, the
latch and the parameters; the log but for Output's one word; the status but for Halt's; and a fault's
entry is all a faulting one does. -/
def Obligations.NonStoringInstructionsFrame : Prop :=
  ∀ (i : Instr) (s t : State),
    i.opcode ∈ ([.output, .jumpIfTrue, .jumpIfFalse, .halt] : List Opcode) → exec i s = .next t →
    (∀ a : Nat, t.mem.read a = s.mem.read a) ∧
      t.cfg = s.cfg ∧ t.len = s.len ∧ t.inlat = s.inlat ∧
      (i.opcode ≠ .output → t.out = s.out) ∧
      ((t.fault = s.fault ∧ (i.opcode ≠ .halt → t.status = s.status) ∧
          (i.opcode = .output → ∃ v, t.out = s.out ++ [v])) ∨ ∃ f, t = raise s f)

/-- An Add or Multiply that completes writes the sum or product, wrapped where it does not fit, to its
destination alone and advances pc by 4 (41_arithmetic.md section 4; the wrapped case is an inference
the spec marks as its own, "[derived: from rule R71, rule R72 and rule R73]"). -/
def Obligations.ArithmeticWritesOneCell : Prop :=
  ∀ (m1 m2 m3 : Mode) (high : Nat) (i : Instr) (s t : State),
    (i = .add m1 m2 m3 high ∨ i = .multiply m1 m2 m3 high) → exec i s = .next t →
    (∀ f, t ≠ raise s f) →
    ∃ d a b r, storeTarget i s = some d ∧ ReadsAs s m1 1 a ∧ ReadsAs s m2 2 b ∧
      (i = .add m1 m2 m3 high → r = a + b) ∧ (i = .multiply m1 m2 m3 high → r = a * b) ∧
      StoredAndAdvanced s t d (if fitsW s.cfg.wordBits r = true then r else wrapW s.cfg.wordBits r) 4 ∧
      (fitsW s.cfg.wordBits r = false → s.cfg.overflow = .wrap)

/-! ### Faults (60_exceptions.md) -/

/-- The record of each cause (60_exceptions.md sections 1; codes and layout are decision D7). -/
def Obligations.FaultRecordFields : Prop :=
  ∀ (pc w i d : Int) (k : Nat),
    (FaultCause.unknownOpcode w).record pc = ⟨1, pc, w, 0, 0⟩ ∧
      (FaultCause.unknownAddressingMode d k).record pc = ⟨2, pc, d, (k : Int), 0⟩ ∧
      (FaultCause.outOfBounds i k).record pc = ⟨3, pc, 0, (k : Int), i⟩ ∧
      (FaultCause.immediateDestination k).record pc = ⟨4, pc, 1, (k : Int), 0⟩ ∧
      (FaultCause.arithmeticOverflow w).record pc = ⟨5, pc, w, 0, 0⟩

/-- R88: the faults each instruction can raise. (The premise rules out a state that is FAULTED already,
in which no step is taken.) -/
def Obligations.FaultsOfEachInstruction : Prop :=
  (∀ (i : Instr) (s : State) (f : FaultCause), s.status ≠ .faulted →
      exec i s = .next (raise s f) → MayRaise i s f) ∧
    ∀ (s : State) (w : Int), s.status = .running → InImage s s.pc →
      decode (memRead s s.pc) = .error (.unknownOpcode w) →
      step s = .next (raise s (.unknownOpcode w))

/-- R90: fault entry. A step that faults writes the status and the fault record of one cause and changes
nothing else: pc still names the faulting instruction. -/
def Obligations.FaultsArePrecise : Prop :=
  ∀ s t : State, step s = .next t → t.status = .faulted →
    ∃ f : FaultCause, t = { s with status := .faulted, fault := f.record s.pc } ∧
      t.fault.fcause = f.code ∧ t.fault.fpc = s.pc ∧ t.fault.fvalue = f.value ∧
      t.fault.foperand = f.operand ∧ t.fault.findex = f.index ∧
      t.mem = s.mem ∧ t.pc = s.pc ∧ t.out = s.out ∧ t.inlat = s.inlat ∧ t.len = s.len

/-! ### The whole machine -/

/-- The invariant holds at power-on with any parameters that meet R6's constraint, and at reset. The
reset's parameters are the model's choice (log entry 2). -/
def Obligations.PowerOnMeetsTheInvariant : Prop :=
  (∀ c : Config, configWellFormed c = true → Inv (State.powerOn c)) ∧ Inv State.reset

/-- Every step keeps the invariant: every value stays a word, memory canonical and inside the image, and
the fault record zero unless FAULTED (10_state.md). -/
def Obligations.StepKeepsTheInvariant : Prop :=
  ∀ s t : State, Inv s → step s = .next t → Inv t

/-- Every host operation keeps the invariant, refused or not (60_exceptions.md section 5). -/
def Obligations.HostOperationsKeepTheInvariant : Prop :=
  ∀ (op : HostOp) (s : State), Inv s → Inv (hostApply op s).1

/-- No number of steps changes the length, the latch or the parameters (10_state.md sections 2 and 4), and
the log only grows, by at most one word a step. -/
def Obligations.RunKeepsLengthLatchAndLog : Prop :=
  ∀ (n : Nat) (s t : State), Host.Core.run Sys2Proof.core n s = .next t →
    t.len = s.len ∧ t.inlat = s.inlat ∧ t.cfg = s.cfg ∧
      ∃ vs, t.out = s.out ++ vs ∧ vs.length ≤ n

/-- A step reads only the parameters, status, pc, len, the latch and the cells below len (10_state.md
sections 2 and 7): from states alike in these it answers alike, appends the same words and raises the
same fault. The output log, the fault record and cells at or above len cannot be observed. -/
def Obligations.StepReadsOnlyTheProgramState : Prop :=
  ∀ s1 s2 : State, Alike s1 s2 →
    ∀ t1, step s1 = .next t1 →
      ∃ t2, step s2 = .next t2 ∧ Alike t1 t2 ∧
        (∃ vs, t1.out = s1.out ++ vs ∧ t2.out = s2.out ++ vs) ∧
        (t1.status = .faulted → t1.fault = t2.fault)

/-- A run has exactly one of three outcomes: it halts in one final state, it faults in one final state,
or it never ends (40_dispatch.md section 5). -/
def Obligations.RunHasOneOutcome : Prop :=
  ∀ s : State, s.status = .running →
    (∃ t, HaltsIn s t ∧ ¬ Diverges s ∧ ∀ u, RunsTo s u → u.status ≠ .running → u = t) ∨
      (∃ t, FaultsIn s t ∧ ¬ Diverges s ∧ ∀ u, RunsTo s u → u.status ≠ .running → u = t) ∨
      (Diverges s ∧ ∀ u, RunsTo s u → u.status = .running)

/-- A taken jump to itself, JumpIfTrue on a condition that is not 0 or JumpIfFalse on 0, runs forever: no
bound on a run's length exists (40_dispatch.md section 5, 43_jumps.md sections 1 and 2). -/
def Obligations.JumpToItselfNeverEnds : Prop :=
  ∀ (s : State) (m1 m2 : Mode) (high : Nat) (c : Int), s.status = .running → InImage s s.pc →
    ((decode (memRead s s.pc) = .ok (.jumpIfTrue m1 m2 high) ∧ c ≠ 0) ∨
      (decode (memRead s s.pc) = .ok (.jumpIfFalse m1 m2 high) ∧ c = 0)) →
    ReadsAs s m1 1 c → ReadsAs s m2 2 s.pc → Diverges s

/-- The output event a step presents: number `|out|` before the append, and Output's operand; no other
step presents one (60_exceptions.md section 6; the numbering is decision D11). -/
def Obligations.OutputEventsAreNumbered : Prop :=
  ∀ (s : State) (n : Nat) (v : Int),
    stepEvent s = some (n, v) ↔
      s.status = .running ∧ n = s.out.length ∧ InImage s s.pc ∧
        ∃ m1 high, decode (memRead s s.pc) = .ok (.output m1 high) ∧ ReadsAs s m1 1 v

/-! ### The host interface (60_exceptions.md section 5, 70_reset_and_hazards.md) -/

/-- LOAD of an image that fits is accepted in any status and leaves the state of 10_state.md section 6: a
copy of the image, its length, pc 0, READY, and everything else zero or empty (D2, D7, D9, D10). LOAD of
an image longer than MEM_WORDS is refused and changes nothing (D2). -/
def Obligations.LoadPutsTheImage : Prop :=
  (∀ (P : List Int) (s : State), P.length ≤ s.cfg.memWords → (∀ v ∈ P, IsWord s v) →
      ∃ t, hostLoad P s = (t, .done) ∧ memoryImage t = P ∧
        (∀ (i : Nat) (h : i < P.length), memRead t (i : Int) = P[i]) ∧ t.len = P.length ∧ t.pc = 0 ∧
        t.status = .ready ∧ t.inlat = 0 ∧ t.out = [] ∧ t.fault = ⟨0, 0, 0, 0, 0⟩ ∧ t.cfg = s.cfg) ∧
    ∀ (P : List Int) (s : State), s.cfg.memWords < P.length →
      hostLoad P s = (s, .refused .imageTooLong)

/-- The state at reset: that of LOAD of the empty image (10_state.md section 6, D18), from which START
faults at the first fetch with OutOfBounds of index 0. -/
def Obligations.PowerOnIsTheEmptyImage : Prop :=
  ∀ c : Config, hostLoad [] (State.powerOn c) = (State.powerOn c, .done) ∧
    State.reset = State.powerOn Config.default ∧
    ∀ v : Int, IsWord (State.powerOn c) v →
      ∃ t u, hostStart v (State.powerOn c) = (t, .done) ∧ t.inlat = v ∧ step t = .next u ∧
        u.status = .faulted ∧ u.fault = ⟨3, 0, 0, 0, 0⟩

/-- START is accepted in READY only: it writes the latch and the status and nothing else; so a loaded
image runs at most once (70_reset_and_hazards.md section 2, D9). -/
def Obligations.StartOnlyFromReady : Prop :=
  (∀ (s : State) (v : Int), s.status = .ready → IsWord s v →
      hostStart v s = ({ s with inlat := v, status := .running }, .done)) ∧
    ∀ (s : State) (v : Int), s.status ≠ .ready → hostStart v s = (s, .refused (.wrongStatus s.status))

/-- The host reads and writes memory in READY and HALTED only and inside the image only (D12): a write is
what a later read returns, and leaves every other cell alone. -/
def Obligations.HostMemoryAccess : Prop :=
  (∀ (s : State) (i v : Int), s.status = .ready ∨ s.status = .halted → InImage s i → IsWord s v →
      hostRead i s = (s, .word (memRead s i)) ∧
        ∃ t, hostWrite i v s = (t, .done) ∧ hostRead i t = (t, .word v) ∧
          (∀ j : Int, InImage s j → j ≠ i → hostRead j t = (t, .word (memRead s j))) ∧
          t.pc = s.pc ∧ t.len = s.len ∧ t.status = s.status ∧ t.inlat = s.inlat ∧ t.out = s.out ∧
          t.fault = s.fault ∧ t.cfg = s.cfg) ∧
    ∀ (s : State) (i v : Int), s.status = .running ∨ s.status = .faulted ∨ ¬ InImage s i →
      ∃ e1 e2, hostRead i s = (s, .refused e1) ∧ hostWrite i v s = (s, .refused e2)

/-- A refused operation changes no state (60_exceptions.md section 5), and READ_STATE and RESULT never
change it; READ_STATE is never refused, RESULT exactly outside HALTED. -/
def Obligations.RefusedOperationsChangeNothing : Prop :=
  (∀ (op : HostOp) (s t : State) (e : HostError), hostApply op s = (t, .refused e) → t = s) ∧
    (∀ s : State, hostApply .readState s = (s, .state s.status s.pc s.len s.fault)) ∧
    ∀ s : State, (∃ e, hostApply .result s = (s, .refused e)) ↔ s.status ≠ .halted

/-- HALTED and FAULTED are terminal: no step is taken from them and no host operation but LOAD changes the
status (10_state.md section 4, 60_exceptions.md section 3). -/
def Obligations.OnlyLoadLeavesTerminalStatus : Prop :=
  ∀ s : State, s.status = .halted ∨ s.status = .faulted →
    (∀ t, step s ≠ .next t) ∧
      ∀ op : HostOp, (∀ P, op ≠ .load P) → (hostApply op s).1.status = s.status

/-- ABANDON of a RUNNING block undoes nothing, and after it the session accepts LOAD only; an accepted
LOAD ends the abandonment. In any other status ABANDON is refused and changes nothing. That every other
operation is refused after ABANDON is the model's choice (log entry 7). -/
def Obligations.AbandonedSessionAcceptsOnlyLoad : Prop :=
  (∀ s : State, s.status = .running → sessionHost .abandon ⟨s, false⟩ = (⟨s, true⟩, .done)) ∧
    (∀ s : State, s.status ≠ .running →
      sessionHost .abandon ⟨s, false⟩ = (⟨s, false⟩, .refused (.wrongStatus s.status))) ∧
    (∀ (op : HostOp) (s : State), (∀ P, op ≠ .load P) →
      sessionHost op ⟨s, true⟩ = (⟨s, true⟩, .refused .abandoned)) ∧
    ∀ (P : List Int) (s t : State) (b : Bool), hostLoad P s = (t, .done) →
      sessionHost (.load P) ⟨s, b⟩ = (⟨t, false⟩, .done)

/-- The host's access rights (10_state.md section 4). Reads: status, pc, len, the fault record and the
latch in any status, the log at HALTED as the run result (memory is `HostMemoryAccess`). Writes: only LOAD
writes len, pc, the log and the fault record, only LOAD and START the status and the latch, only LOAD and
HOST_WRITE memory, and none the parameters. The operation that reads the latch is the model's choice
(log entry 16). -/
def Obligations.HostAccessRights : Prop :=
  (∀ s : State, hostApply .readState s = (s, .state s.status s.pc s.len s.fault) ∧
      hostApply .readLatch s = (s, .word s.inlat) ∧
      (s.status = .halted → hostApply .result s = (s, .result s.out (memoryImage s)))) ∧
    ∀ (op : HostOp) (s t : State) (r : HostReply), hostApply op s = (t, r) →
      t.cfg = s.cfg ∧
        ((∀ P, op ≠ .load P) →
          t.len = s.len ∧ t.pc = s.pc ∧ t.out = s.out ∧ t.fault = s.fault ∧
            ((∀ v, op ≠ .start v) → t.status = s.status ∧ t.inlat = s.inlat) ∧
            ((∀ i v, op ≠ .hostWrite i v) → t.mem = s.mem))
end

