-- ==== Sys2Proof/Laws/Arith.lean ====
section
/-! SUPPORT. The W-bit range, wrapping, and truncating division of non-negative numbers. -/

namespace Sys2Proof.Machine

theorem fitsW_iff {W : Nat} {v : Int} : fitsW W v = true ↔ minWord W ≤ v ∧ v ≤ maxWord W := by
  simp [fitsW]

theorem configWellFormed_iff {c : Config} :
    configWellFormed c = true ↔ c.memWords + 4 ≤ 2 ^ (c.wordBits - 1) := by
  simp [configWellFormed]

/-- Both ends of the word range in terms of `2^(W-1)`. -/
theorem minWord_maxWord (W : Nat) : minWord W = -(maxWord W + 1) := by
  simp [minWord, maxWord]

/-- A parameter choice that meets R6 has a positive width. -/
theorem wordBits_pos {c : Config} (h : configWellFormed c = true) : ∃ n, c.wordBits = n + 1 := by
  rw [configWellFormed_iff] at h
  cases hw : c.wordBits with
  | zero => rw [hw] at h; simp at h
  | succ n => exact ⟨n, rfl⟩

theorem two_pow_succ (n : Nat) : ((2 ^ (n + 1) : Nat) : Int) = 2 * ((2 ^ n : Nat) : Int) := by
  push_cast
  ring

/-- A wrapped value is a word (spec/00_scope.md R7). -/
theorem wrapW_isWord (n : Nat) (v : Int) :
    minWord (n + 1) ≤ wrapW (n + 1) v ∧ wrapW (n + 1) v ≤ maxWord (n + 1) := by
  have hp : (0 : Nat) < 2 ^ (n + 1) := by positivity
  have hpow := two_pow_succ n
  have h1 := Int.le_bmod (x := v) hp
  have h2 := Int.bmod_lt (x := v) hp
  rw [hpow] at h1 h2
  have half : ∀ p b : Int, -(2 * p / 2) ≤ b → b < (2 * p + 1) / 2 → -p ≤ b ∧ b ≤ p - 1 := by omega
  exact half _ _ h1 h2

/-- A wrapped value is congruent to the exact one modulo `2^W` (R7). -/
theorem wrapW_emod (W : Nat) (v : Int) : (wrapW W v) % ((2 ^ W : Nat) : Int) = v % ((2 ^ W : Nat) : Int) :=
  Int.bmod_emod

/-- A value that fits is its own wrapping (R7). -/
theorem wrapW_of_fits {n : Nat} {v : Int} (h : fitsW (n + 1) v = true) : wrapW (n + 1) v = v := by
  rw [fitsW_iff] at h
  have hpow := two_pow_succ n
  simp only [minWord, maxWord, Nat.add_sub_cancel] at h
  exact Int.bmod_eq_of_le (by omega) (by omega)

theorem divT_of_nonneg {a b : Int} (ha : 0 ≤ a) : divT a b = a / b := Int.tdiv_eq_ediv_of_nonneg ha

theorem remT_of_nonneg {a b : Int} (ha : 0 ≤ a) : remT a b = a % b := Int.tmod_eq_emod_of_nonneg ha

/-- A negative word has no positive remainder (R7, spec/30_encoding.md R53). -/
theorem remT_nonpos {a b : Int} (ha : a ≤ 0) : remT a b ≤ 0 := by
  have h := Int.tmod_nonneg b (a := -a) (by omega)
  rw [Int.neg_tmod] at h
  unfold remT
  omega

/-- The one thing the ALU can do (spec/41_arithmetic.md R71). -/
theorem aluResult_cases (c : Config) (w exact : Int) :
    (fitsW c.wordBits exact = true ∧ aluResult c w exact = .ok exact) ∨
      (fitsW c.wordBits exact = false ∧ c.overflow = .fault ∧
        aluResult c w exact = .error (.arithmeticOverflow w)) ∨
      (fitsW c.wordBits exact = false ∧ c.overflow = .wrap ∧
        aluResult c w exact = .ok (wrapW c.wordBits exact)) := by
  unfold aluResult
  cases h : fitsW c.wordBits exact <;> cases ho : c.overflow <;> simp

end Sys2Proof.Machine
end

