-- ==== Sys2Proof/Laws/Decode.lean ====
section
/-! SUPPORT. The small lemmas of the decoder: the opcode map, and the fields of a word written as its
opcode and the digits above. -/

namespace Sys2Proof

/-- A number selects an opcode exactly when it is that opcode's number. -/
theorem Opcode.ofNumber_iff {n : Int} {o : Opcode} :
    Opcode.ofNumber n = some o ↔ n = (o.number : Int) := by
  constructor
  · intro h
    have := List.find?_some h
    simpa using (of_decide_eq_true this).symm
  · rintro rfl
    cases o <;> decide

/-- What the decoder answers, said once. -/
theorem decode_ok_iff {w : Int} {i : Instr} :
    decode w = .ok i ↔ ∃ o : Opcode, opc w = (o.number : Int) ∧ i = o.instrOf w := by
  unfold decode
  cases h : Opcode.ofNumber (opc w) with
  | none =>
    simp only [reduceCtorEq, false_iff, not_exists, not_and]
    intro o ho
    rw [Opcode.ofNumber_iff.2 ho] at h
    cases h
  | some o =>
    rw [Opcode.ofNumber_iff] at h
    constructor
    · intro e
      exact ⟨o, h, by simpa using e.symm⟩
    · rintro ⟨o', ho', rfl⟩
      have : o = o' := by
        have e := h.symm.trans ho'
        revert e
        cases o <;> cases o' <;> simp [Opcode.number]
      rw [this]

/-- The instruction of an opcode has that opcode. -/
@[simp] theorem Opcode.instrOf_opcode (o : Opcode) (w : Int) : (o.instrOf w).opcode = o := by
  cases o <;> rfl

/-- A word of a known opcode is not negative (spec/30_encoding.md R53). -/
theorem nonneg_of_opc {w : Int} {o : Opcode} (h : opc w = (o.number : Int)) : 0 ≤ w := by
  by_contra hw
  have h1 := Machine.remT_nonpos (a := w) (b := 100) (by omega)
  have h2 : (0 : Int) < (o.number : Int) := by cases o <;> decide
  unfold opc at h
  omega

/-- The opcode of a word written as two low digits and the rest. -/
theorem opc_of_digits {n r : Nat} (h : n < 100) : opc (((n + 100 * r : Nat) : Int)) = (n : Int) := by
  rw [opc, Machine.remT_of_nonneg (by positivity)]
  omega

theorem Opcode.number_lt (o : Opcode) : o.number < 100 := by cases o <;> decide

@[simp] theorem Mode.ofDigit_digit {m : Mode} (h : m.wellFormed = true) :
    Mode.ofDigit (m.digit : Int) = m := by
  cases m with
  | position => rfl
  | immediate => rfl
  | unknown d =>
    simp only [Mode.wellFormed, Bool.and_eq_true, decide_eq_true_eq] at h
    have h1 : ((d : Nat) : Int) ≠ 1 := by omega
    have h2 : d ≠ 0 := by omega
    simp [Mode.ofDigit, Mode.digit, h1, h2]

theorem Mode.digit_lt {m : Mode} (h : m.wellFormed = true) : m.digit < 10 := by
  cases m with
  | position => decide
  | immediate => decide
  | unknown d =>
    simp only [Mode.wellFormed, Bool.and_eq_true, decide_eq_true_eq] at h
    simp only [Mode.digit]
    omega

/-- The mode of a digit is well formed. -/
theorem Mode.ofDigit_wellFormed {d : Int} (h0 : 0 ≤ d) (h9 : d ≤ 9) :
    (Mode.ofDigit d).wellFormed = true := by
  unfold Mode.ofDigit
  split
  · rfl
  · split
    · rfl
    · simp only [Mode.wellFormed, Bool.and_eq_true, decide_eq_true_eq]
      omega

end Sys2Proof
end

