-- ==== Sys2Proof/Laws/State.lean ====
section
/-! SUPPORT. What each named update leaves in each field of the state: one lemma per field and update. -/

namespace Sys2Proof.Machine

variable (s : State)

@[simp] theorem memWrite_cfg (i v : Int) : (memWrite s i v).cfg = s.cfg := rfl
@[simp] theorem memWrite_mem (i v : Int) : (memWrite s i v).mem = s.mem.write i.toNat v := rfl
@[simp] theorem memWrite_len (i v : Int) : (memWrite s i v).len = s.len := rfl
@[simp] theorem memWrite_pc (i v : Int) : (memWrite s i v).pc = s.pc := rfl
@[simp] theorem memWrite_status (i v : Int) : (memWrite s i v).status = s.status := rfl
@[simp] theorem memWrite_inlat (i v : Int) : (memWrite s i v).inlat = s.inlat := rfl
@[simp] theorem memWrite_out (i v : Int) : (memWrite s i v).out = s.out := rfl
@[simp] theorem memWrite_fault (i v : Int) : (memWrite s i v).fault = s.fault := rfl

@[simp] theorem setPc_cfg (p : Int) : (setPc s p).cfg = s.cfg := rfl
@[simp] theorem setPc_mem (p : Int) : (setPc s p).mem = s.mem := rfl
@[simp] theorem setPc_len (p : Int) : (setPc s p).len = s.len := rfl
@[simp] theorem setPc_pc (p : Int) : (setPc s p).pc = p := rfl
@[simp] theorem setPc_status (p : Int) : (setPc s p).status = s.status := rfl
@[simp] theorem setPc_inlat (p : Int) : (setPc s p).inlat = s.inlat := rfl
@[simp] theorem setPc_out (p : Int) : (setPc s p).out = s.out := rfl
@[simp] theorem setPc_fault (p : Int) : (setPc s p).fault = s.fault := rfl

@[simp] theorem advance_cfg (n : Nat) : (advance s n).cfg = s.cfg := rfl
@[simp] theorem advance_mem (n : Nat) : (advance s n).mem = s.mem := rfl
@[simp] theorem advance_len (n : Nat) : (advance s n).len = s.len := rfl
@[simp] theorem advance_pc (n : Nat) : (advance s n).pc = s.pc + (n : Int) := rfl
@[simp] theorem advance_status (n : Nat) : (advance s n).status = s.status := rfl
@[simp] theorem advance_inlat (n : Nat) : (advance s n).inlat = s.inlat := rfl
@[simp] theorem advance_out (n : Nat) : (advance s n).out = s.out := rfl
@[simp] theorem advance_fault (n : Nat) : (advance s n).fault = s.fault := rfl

@[simp] theorem emit_cfg (v : Int) : (emit s v).cfg = s.cfg := rfl
@[simp] theorem emit_mem (v : Int) : (emit s v).mem = s.mem := rfl
@[simp] theorem emit_len (v : Int) : (emit s v).len = s.len := rfl
@[simp] theorem emit_pc (v : Int) : (emit s v).pc = s.pc := rfl
@[simp] theorem emit_status (v : Int) : (emit s v).status = s.status := rfl
@[simp] theorem emit_inlat (v : Int) : (emit s v).inlat = s.inlat := rfl
@[simp] theorem emit_out (v : Int) : (emit s v).out = s.out ++ [v] := rfl
@[simp] theorem emit_fault (v : Int) : (emit s v).fault = s.fault := rfl

@[simp] theorem setHalted_cfg : (setHalted s).cfg = s.cfg := rfl
@[simp] theorem setHalted_mem : (setHalted s).mem = s.mem := rfl
@[simp] theorem setHalted_len : (setHalted s).len = s.len := rfl
@[simp] theorem setHalted_pc : (setHalted s).pc = s.pc := rfl
@[simp] theorem setHalted_status : (setHalted s).status = .halted := rfl
@[simp] theorem setHalted_inlat : (setHalted s).inlat = s.inlat := rfl
@[simp] theorem setHalted_out : (setHalted s).out = s.out := rfl
@[simp] theorem setHalted_fault : (setHalted s).fault = s.fault := rfl

@[simp] theorem raise_cfg (f : FaultCause) : (raise s f).cfg = s.cfg := rfl
@[simp] theorem raise_mem (f : FaultCause) : (raise s f).mem = s.mem := rfl
@[simp] theorem raise_len (f : FaultCause) : (raise s f).len = s.len := rfl
@[simp] theorem raise_pc (f : FaultCause) : (raise s f).pc = s.pc := rfl
@[simp] theorem raise_status (f : FaultCause) : (raise s f).status = .faulted := rfl
@[simp] theorem raise_inlat (f : FaultCause) : (raise s f).inlat = s.inlat := rfl
@[simp] theorem raise_out (f : FaultCause) : (raise s f).out = s.out := rfl
@[simp] theorem raise_fault (f : FaultCause) : (raise s f).fault = f.record s.pc := rfl

@[simp] theorem loadState_cfg (P : List Int) : (loadState P s).cfg = s.cfg := rfl
@[simp] theorem loadState_mem (P : List Int) : (loadState P s).mem = Memory.ofList P := rfl
@[simp] theorem loadState_len (P : List Int) : (loadState P s).len = P.length := rfl
@[simp] theorem loadState_pc (P : List Int) : (loadState P s).pc = 0 := rfl
@[simp] theorem loadState_status (P : List Int) : (loadState P s).status = .ready := rfl
@[simp] theorem loadState_inlat (P : List Int) : (loadState P s).inlat = 0 := rfl
@[simp] theorem loadState_out (P : List Int) : (loadState P s).out = [] := rfl
@[simp] theorem loadState_fault (P : List Int) : (loadState P s).fault = .zero := rfl

@[simp] theorem powerOn_cfg (c : Config) : (State.powerOn c).cfg = c := rfl
@[simp] theorem powerOn_mem (c : Config) : (State.powerOn c).mem = [] := rfl
@[simp] theorem powerOn_len (c : Config) : (State.powerOn c).len = 0 := rfl
@[simp] theorem powerOn_pc (c : Config) : (State.powerOn c).pc = 0 := rfl
@[simp] theorem powerOn_status (c : Config) : (State.powerOn c).status = .ready := rfl
@[simp] theorem powerOn_inlat (c : Config) : (State.powerOn c).inlat = 0 := rfl
@[simp] theorem powerOn_out (c : Config) : (State.powerOn c).out = [] := rfl
@[simp] theorem powerOn_fault (c : Config) : (State.powerOn c).fault = .zero := rfl

/-- Reading a cell after a write goes through memory only. -/
@[simp] theorem memRead_setPc (p i : Int) : memRead (setPc s p) i = memRead s i := rfl
@[simp] theorem memRead_advance (n : Nat) (i : Int) : memRead (advance s n) i = memRead s i := rfl
@[simp] theorem memRead_emit (v i : Int) : memRead (emit s v) i = memRead s i := rfl
@[simp] theorem memRead_raise (f : FaultCause) (i : Int) : memRead (raise s f) i = memRead s i := rfl
@[simp] theorem inBounds_memWrite (j v i : Int) : inBounds (memWrite s j v) i = inBounds s i := rfl
@[simp] theorem inBounds_advance (n : Nat) (i : Int) : inBounds (advance s n) i = inBounds s i := rfl

end Sys2Proof.Machine
end

