-- ==== Sys2Proof/Laws/Memory.lean ====
section
/-! SUPPORT. The laws of memory: a read after a write, and the canonical form, which every memory
operation keeps. -/

namespace Sys2Proof.Machine

@[simp] theorem Memory.read_nil (a : Nat) : Memory.read [] a = 0 := rfl

theorem Memory.read_cons (b : Nat) (x : Int) (m : Memory) (a : Nat) :
    Memory.read ((b, x) :: m) a = if a = b then x else Memory.read m a := rfl

theorem Memory.erase_cons (b : Nat) (x : Int) (m : Memory) (a : Nat) :
    Memory.erase ((b, x) :: m) a = if b = a then Memory.erase m a else (b, x) :: Memory.erase m a := by
  by_cases h : b = a <;> simp [Memory.erase, h]

theorem Memory.read_erase_self (m : Memory) (a : Nat) : (Memory.erase m a).read a = 0 := by
  induction m with
  | nil => rfl
  | cons c m ih =>
    obtain ⟨b, x⟩ := c
    rw [Memory.erase_cons]
    split
    · exact ih
    · rename_i h
      rw [Memory.read_cons, if_neg (Ne.symm h), ih]

theorem Memory.read_erase_other (m : Memory) {a b : Nat} (h : b ≠ a) :
    (Memory.erase m a).read b = m.read b := by
  induction m with
  | nil => rfl
  | cons c m ih =>
    obtain ⟨e, x⟩ := c
    rw [Memory.erase_cons]
    split
    · rename_i he
      subst he
      rw [ih, Memory.read_cons, if_neg h]
    · rw [Memory.read_cons, Memory.read_cons, ih]

theorem Memory.read_insert_other (m : Memory) {a b : Nat} (v : Int) (h : b ≠ a) :
    (Memory.insert m a v).read b = m.read b := by
  induction m with
  | nil => simp [Memory.insert, Memory.read, h]
  | cons c m ih =>
    obtain ⟨e, x⟩ := c
    simp only [Memory.insert]
    split
    · simp [Memory.read, h]
    · rw [Memory.read_cons, Memory.read_cons, ih]

theorem Memory.read_insert_erase (m : Memory) (a : Nat) (v : Int) :
    ((Memory.erase m a).insert a v).read a = v := by
  induction m with
  | nil => simp [Memory.erase, Memory.insert, Memory.read]
  | cons c m ih =>
    obtain ⟨e, x⟩ := c
    rw [Memory.erase_cons]
    split
    · exact ih
    · rename_i he
      simp only [Memory.insert]
      split
      · simp [Memory.read]
      · rw [Memory.read_cons, if_neg (Ne.symm he), ih]

/-- A cell reads as the value last written to it (spec/20_memory.md R37). -/
@[simp] theorem Memory.read_write_self (m : Memory) (a : Nat) (v : Int) : (m.write a v).read a = v := by
  unfold Memory.write
  split
  · rename_i h
    rw [Memory.read_erase_self, h]
  · exact Memory.read_insert_erase m a v

/-- A write leaves every other cell alone. -/
theorem Memory.read_write_other (m : Memory) {a b : Nat} (v : Int) (h : b ≠ a) :
    (m.write a v).read b = m.read b := by
  unfold Memory.write
  split
  · exact Memory.read_erase_other m h
  · rw [Memory.read_insert_other _ _ h, Memory.read_erase_other m h]

/-- Every cell listed after a write is the one written or was listed before. -/
theorem Memory.mem_write {m : Memory} {a : Nat} {v : Int} {c : Nat × Int}
    (h : c ∈ m.write a v) : (c = (a, v) ∧ v ≠ 0) ∨ c ∈ m := by
  have hins : ∀ l : Memory, c ∈ l.insert a v → c = (a, v) ∨ c ∈ l := by
    intro l
    induction l with
    | nil => simp [Memory.insert]
    | cons d l ih =>
      obtain ⟨e, x⟩ := d
      simp only [Memory.insert]
      split
      · simp
      · intro hc
        rcases List.mem_cons.1 hc with hc | hc
        · exact .inr (by simp [hc])
        · exact (ih hc).imp id (List.mem_cons_of_mem _)
  unfold Memory.write at h
  split at h
  · exact .inr (List.mem_of_mem_filter h)
  · rename_i hv
    exact (hins _ h).imp (fun hc => ⟨hc, hv⟩) List.mem_of_mem_filter

@[simp] theorem Memory.wfFrom_nil (lo : Nat) : Memory.wfFrom lo [] = true := rfl

theorem Memory.wfFrom_cons {lo b : Nat} {x : Int} {m : Memory} :
    Memory.wfFrom lo ((b, x) :: m) = true ↔ lo ≤ b ∧ x ≠ 0 ∧ Memory.wfFrom (b + 1) m = true := by
  simp [Memory.wfFrom, and_assoc]

theorem Memory.wfFrom_mono {lo lo' : Nat} {m : Memory} (hlo : lo' ≤ lo)
    (h : Memory.wfFrom lo m = true) : Memory.wfFrom lo' m = true := by
  cases m with
  | nil => rfl
  | cons c m =>
    obtain ⟨b, x⟩ := c
    rw [Memory.wfFrom_cons] at h ⊢
    exact ⟨hlo.trans h.1, h.2⟩

theorem Memory.wfFrom_erase {lo : Nat} {m : Memory} (a : Nat) (h : Memory.wfFrom lo m = true) :
    Memory.wfFrom lo (m.erase a) = true := by
  induction m generalizing lo with
  | nil => rfl
  | cons c m ih =>
    obtain ⟨b, x⟩ := c
    rw [Memory.wfFrom_cons] at h
    rw [Memory.erase_cons]
    split
    · exact Memory.wfFrom_mono (h.1.trans (Nat.le_succ b)) (ih h.2.2)
    · exact Memory.wfFrom_cons.2 ⟨h.1, h.2.1, ih h.2.2⟩

theorem Memory.wfFrom_insert {lo a : Nat} {v : Int} {m : Memory} (hv : v ≠ 0) (hlo : lo ≤ a)
    (hm : ∀ c ∈ m, c.1 ≠ a) (h : Memory.wfFrom lo m = true) :
    Memory.wfFrom lo (m.insert a v) = true := by
  induction m generalizing lo with
  | nil => simp [Memory.insert, Memory.wfFrom, hv, hlo]
  | cons c m ih =>
    obtain ⟨b, x⟩ := c
    rw [Memory.wfFrom_cons] at h
    have hb : b ≠ a := hm (b, x) (by simp)
    simp only [Memory.insert]
    split
    · rename_i hab
      exact Memory.wfFrom_cons.2 ⟨hlo, hv, Memory.wfFrom_cons.2 ⟨hab, h.2⟩⟩
    · rename_i hab
      exact Memory.wfFrom_cons.2 ⟨h.1, h.2.1,
        ih (by omega) (fun c hc => hm c (List.mem_cons_of_mem _ hc)) h.2.2⟩

/-- A write keeps the canonical form. -/
theorem Memory.wf_write {m : Memory} (a : Nat) (v : Int) (h : m.wf = true) :
    (m.write a v).wf = true := by
  unfold Memory.wf Memory.write at *
  split
  · exact Memory.wfFrom_erase a h
  · rename_i hv
    exact Memory.wfFrom_insert hv (Nat.zero_le a)
      (fun c hc => by simpa using (List.mem_filter.1 hc).2) (Memory.wfFrom_erase a h)

/-- Writing a list of words keeps the canonical form. -/
theorem Memory.wf_writeList {m : Memory} (a : Nat) (vs : List Int) (h : m.wf = true) :
    (m.writeList a vs).wf = true := by
  induction vs generalizing m a with
  | nil => exact h
  | cons v vs ih => exact ih (a + 1) (Memory.wf_write a v h)

theorem Memory.wfFrom_ofListFrom (a : Nat) (vs : List Int) :
    Memory.wfFrom a (Memory.ofListFrom a vs) = true := by
  induction vs generalizing a with
  | nil => rfl
  | cons v vs ih =>
    simp only [Memory.ofListFrom]
    split
    · exact Memory.wfFrom_mono (Nat.le_succ a) (ih (a + 1))
    · rename_i hv
      exact Memory.wfFrom_cons.2 ⟨le_rfl, hv, ih (a + 1)⟩

/-- An image's memory is canonical. -/
theorem Memory.wf_ofList (vs : List Int) : (Memory.ofList vs).wf = true :=
  Memory.wfFrom_ofListFrom 0 vs

theorem Memory.mem_ofListFrom {a : Nat} {vs : List Int} {c : Nat × Int}
    (h : c ∈ Memory.ofListFrom a vs) : a ≤ c.1 ∧ c.1 < a + vs.length ∧ c.2 ∈ vs := by
  induction vs generalizing a with
  | nil => simp [Memory.ofListFrom] at h
  | cons v vs ih =>
    simp only [Memory.ofListFrom] at h
    split at h
    · obtain ⟨h1, h2, h3⟩ := ih h
      exact ⟨by omega, by simp only [List.length_cons]; omega, List.mem_cons_of_mem _ h3⟩
    · rcases List.mem_cons.1 h with h | h
      · simp [h]
      · obtain ⟨h1, h2, h3⟩ := ih h
        exact ⟨by omega, by simp only [List.length_cons]; omega, List.mem_cons_of_mem _ h3⟩

theorem Memory.read_ofListFrom_below {a i : Nat} (vs : List Int) (h : i < a) :
    (Memory.ofListFrom a vs).read i = 0 := by
  induction vs generalizing a with
  | nil => rfl
  | cons v vs ih =>
    simp only [Memory.ofListFrom]
    split
    · exact ih (by omega)
    · rw [Memory.read_cons, if_neg (by omega), ih (by omega)]

/-- Cell `a + i` of a list laid out from `a` is its word `i`. -/
theorem Memory.read_ofListFrom (a i : Nat) (vs : List Int) :
    (Memory.ofListFrom a vs).read (a + i) = vs.getD i 0 := by
  induction vs generalizing a i with
  | nil => rfl
  | cons v vs ih =>
    cases i with
    | zero =>
      simp only [Memory.ofListFrom]
      split
      · rename_i hv
        rw [Memory.read_ofListFrom_below vs (by omega), hv]
        rfl
      · simp [Memory.read]
    | succ i =>
      have e : a + (i + 1) = a + 1 + i := by omega
      simp only [Memory.ofListFrom]
      split
      · rw [e, ih]
        rfl
      · rw [Memory.read_cons, if_neg (by omega), e, ih]
        rfl

@[simp] theorem memRead_memWrite_self (s : State) (i v : Int) : memRead (memWrite s i v) i = v := by
  simp [memRead]

theorem memWrite_read_other (s : State) (i v : Int) {a : Nat} (h : a ≠ i.toNat) :
    (memWrite s i v).mem.read a = s.mem.read a := Memory.read_write_other _ _ h

end Sys2Proof.Machine
end

