-- ==== Sys2Proof/Laws/Operands.lean ====
section
/-! SUPPORT. What operand resolution answers, by the operand's mode (spec/40_dispatch.md R61 to R63). -/

namespace Sys2Proof.Machine

variable {s : State} {k : Nat}

theorem inBounds_iff {i : Int} : inBounds s i = true ↔ InImage s i := by simp [inBounds]

theorem checkIndex_inside {i : Int} (h : inBounds s i = true) : checkIndex s i k = .ok i := by
  simp [checkIndex, h]

theorem checkIndex_outside {i : Int} (h : inBounds s i = false) :
    checkIndex s i k = .error (.outOfBounds i k) := by
  simp [checkIndex, h]

/-- `checkIndex` answers its own index, in bounds, or OutOfBounds. -/
theorem checkIndex_ok {i j : Int} (h : checkIndex s i k = .ok j) : j = i ∧ inBounds s i = true := by
  unfold checkIndex at h
  split at h
  · rename_i hb
    cases h
    exact ⟨rfl, hb⟩
  · cases h

theorem readOperand_unknown (d : Nat) :
    readOperand s (.unknown d) k = .error (.unknownAddressingMode (d : Int) k) := rfl

theorem readOperand_immediate :
    readOperand s .immediate k =
      if inBounds s (s.pc + (k : Int)) then .ok (operandCell s k)
      else .error (.outOfBounds (s.pc + (k : Int)) k) := by
  cases h : inBounds s (s.pc + (k : Int)) <;>
    simp [readOperand, resolve, checkIndex, operandCell, h, bind, Except.bind, pure, Except.pure]

theorem readOperand_position :
    readOperand s .position k =
      if inBounds s (s.pc + (k : Int)) then
        if inBounds s (operandCell s k) then .ok (memRead s (operandCell s k))
        else .error (.outOfBounds (operandCell s k) k)
      else .error (.outOfBounds (s.pc + (k : Int)) k) := by
  cases h : inBounds s (s.pc + (k : Int)) with
  | false => simp [readOperand, resolve, h, bind, Except.bind]
  | true =>
    cases h2 : inBounds s (operandCell s k) <;> simp only [operandCell] at h2 <;>
      simp [readOperand, resolve, checkIndex, operandCell, h, h2, bind, Except.bind, pure, Except.pure]

theorem destOperand_unknown (d : Nat) :
    destOperand s (.unknown d) k = .error (.unknownAddressingMode (d : Int) k) := rfl

theorem destOperand_immediate : destOperand s .immediate k = .error (.immediateDestination k) := rfl

theorem destOperand_position :
    destOperand s .position k =
      if inBounds s (s.pc + (k : Int)) then
        if inBounds s (operandCell s k) then .ok (operandCell s k)
        else .error (.outOfBounds (operandCell s k) k)
      else .error (.outOfBounds (s.pc + (k : Int)) k) := by
  cases h : inBounds s (s.pc + (k : Int)) with
  | false => simp [destOperand, resolve, h, bind, Except.bind]
  | true =>
    cases h2 : inBounds s (operandCell s k) <;> simp only [operandCell] at h2 <;>
      simp [destOperand, resolve, checkIndex, operandCell, h, h2, bind, Except.bind]

/-- An Immediate operand reads as its cell. -/
theorem readsAs_immediate {v : Int} (h : InImage s (s.pc + (k : Int)) ∧ v = operandCell s k) :
    ReadsAs s .immediate k v := ⟨h.1, .inl ⟨rfl, h.2⟩⟩

/-- A Position operand reads as the cell that its cell names. -/
theorem readsAs_position {v : Int}
    (h : InImage s (s.pc + (k : Int)) ∧ InImage s (operandCell s k) ∧ v = memRead s (operandCell s k)) :
    ReadsAs s .position k v := ⟨h.1, .inr ⟨rfl, h.2⟩⟩

/-- A Position destination is the cell that its cell names. -/
theorem writesTo_position {d : Int}
    (h : InImage s (s.pc + (k : Int)) ∧ d = operandCell s k ∧ InImage s d) :
    WritesTo s .position k d := ⟨rfl, h⟩

/-- A read operand whose cell is outside the image. -/
theorem readRaises_cell {m : Mode} (hm : m = .position ∨ m = .immediate)
    (h : ¬ InImage s (s.pc + (k : Int))) : ReadRaises s m k (.outOfBounds (s.pc + (k : Int)) k) :=
  .inr (.inl ⟨hm, h, rfl⟩)

/-- A Position read operand that names a cell outside the image. -/
theorem readRaises_index (h : InImage s (s.pc + (k : Int)) ∧ ¬ InImage s (operandCell s k)) :
    ReadRaises s .position k (.outOfBounds (operandCell s k) k) :=
  .inr (.inr ⟨rfl, h.1, h.2, rfl⟩)

/-- A Position destination whose cell is outside the image. -/
theorem writeRaises_cell (h : ¬ InImage s (s.pc + (k : Int))) :
    WriteRaises s .position k (.outOfBounds (s.pc + (k : Int)) k) :=
  .inr (.inr (.inl ⟨rfl, h, rfl⟩))

/-- A Position destination that names a cell outside the image. -/
theorem writeRaises_index (h : InImage s (s.pc + (k : Int)) ∧ ¬ InImage s (operandCell s k)) :
    WriteRaises s .position k (.outOfBounds (operandCell s k) k) :=
  .inr (.inr (.inr ⟨rfl, h.1, h.2, rfl⟩))

/-- The index a destination names is in bounds, so the write cannot fault (R63). -/
theorem destOperand_inBounds {m : Mode} {d : Int} (h : destOperand s m k = .ok d) :
    inBounds s d = true := by
  cases m with
  | unknown e => rw [destOperand_unknown] at h; cases h
  | immediate => rw [destOperand_immediate] at h; cases h
  | position =>
    rw [destOperand_position] at h
    split at h
    · split at h
      · rename_i hb
        cases h
        exact hb
      · cases h
    · cases h

end Sys2Proof.Machine
end

