-- ==== Sys2Proof/Laws/Exec.lean ====
section
/-! SUPPORT. What each shared operation can do, said once: peeling a computation apart, ending an
instruction, and the two shapes several instructions share. -/

namespace Sys2Proof.Machine

/-- A computation that succeeds ran each of its parts. -/
theorem bind_ok_iff {α β : Type} {x : Except FaultCause α} {f : α → Except FaultCause β} {r : β} :
    x >>= f = .ok r ↔ ∃ a, x = .ok a ∧ f a = .ok r := by
  cases x <;> simp [bind, Except.bind]

/-- A computation that raises does so in its first part or, that one having succeeded, in the rest. -/
theorem bind_error_iff {α β : Type} {x : Except FaultCause α} {f : α → Except FaultCause β}
    {e : FaultCause} : x >>= f = .error e ↔ x = .error e ∨ ∃ a, x = .ok a ∧ f a = .error e := by
  cases x <;> simp [bind, Except.bind]

@[simp] theorem pure_ok_iff {α : Type} {a r : α} :
    (pure a : Except FaultCause α) = .ok r ↔ a = r := by simp [pure, Except.pure]

@[simp] theorem pure_error_iff {α : Type} {a : α} {e : FaultCause} :
    (pure a : Except FaultCause α) = .error e ↔ False := by simp [pure, Except.pure]

@[simp] theorem complete_ok (s t : State) : complete s (.ok t) = .next t := rfl

@[simp] theorem complete_error (s : State) (f : FaultCause) :
    complete s (.error f) = .next (raise s f) := rfl

/-- An instruction ends in a next state: its own updates, or fault entry alone. -/
theorem complete_cases {s t : State} {x : Except FaultCause State} (h : complete s x = .next t) :
    x = .ok t ∨ ∃ f, x = .error f ∧ t = raise s f := by
  cases x with
  | ok u => exact .inl (by simpa using h)
  | error f => exact .inr ⟨f, rfl, by simpa using h.symm⟩

/-- All that the three-operand shape does when it completes. -/
theorem binaryOp_ok_iff {result : Int → Int → Except FaultCause Int} {m1 m2 m3 : Mode}
    {s t : State} :
    binaryOp result m1 m2 m3 s = .ok t ↔
      ∃ a, readOperand s m1 1 = .ok a ∧ ∃ b, readOperand s m2 2 = .ok b ∧
        ∃ r, result a b = .ok r ∧ ∃ d, destOperand s m3 3 = .ok d ∧
          advance (memWrite s d r) 4 = t := by
  simp only [binaryOp, bind_ok_iff, pure_ok_iff]

/-- All that the three-operand shape can raise, in the order it checks. -/
theorem binaryOp_error_iff {result : Int → Int → Except FaultCause Int} {m1 m2 m3 : Mode}
    {s : State} {f : FaultCause} :
    binaryOp result m1 m2 m3 s = .error f ↔
      readOperand s m1 1 = .error f ∨ ∃ a, readOperand s m1 1 = .ok a ∧
        (readOperand s m2 2 = .error f ∨ ∃ b, readOperand s m2 2 = .ok b ∧
          (result a b = .error f ∨ ∃ r, result a b = .ok r ∧ destOperand s m3 3 = .error f)) := by
  simp only [binaryOp, bind_error_iff, pure_error_iff, and_false, exists_false, or_false]

/-- All that a conditional jump does when it completes. -/
theorem condJump_ok_iff {taken : Int → Bool} {m1 m2 : Mode} {s t : State} :
    condJump taken m1 m2 s = .ok t ↔
      ∃ c, readOperand s m1 1 = .ok c ∧
        ((taken c = true ∧ ∃ p, readOperand s m2 2 = .ok p ∧ setPc s p = t) ∨
          (taken c = false ∧ advance s 3 = t)) := by
  simp only [condJump, bind_ok_iff]
  refine exists_congr fun c => and_congr_right fun _ => ?_
  cases taken c <;>
    simp only [bind_ok_iff, pure_ok_iff, if_true, if_false, Bool.false_eq_true, reduceCtorEq, true_and,
      false_and, or_false, false_or]

/-- All that a conditional jump can raise. -/
theorem condJump_error_iff {taken : Int → Bool} {m1 m2 : Mode} {s : State} {f : FaultCause} :
    condJump taken m1 m2 s = .error f ↔
      readOperand s m1 1 = .error f ∨ ∃ c, readOperand s m1 1 = .ok c ∧
        taken c = true ∧ readOperand s m2 2 = .error f := by
  simp only [condJump, bind_error_iff]
  refine or_congr Iff.rfl (exists_congr fun c => and_congr_right fun _ => ?_)
  cases taken c <;>
    simp only [bind_error_iff, pure_error_iff, if_true, if_false, Bool.false_eq_true, true_and,
      false_and, and_false, exists_false, or_false]

/-- All that Input does when it completes. -/
theorem inputOp_ok_iff {m1 : Mode} {s t : State} :
    inputOp m1 s = .ok t ↔ ∃ d, destOperand s m1 1 = .ok d ∧ advance (memWrite s d s.inlat) 2 = t := by
  simp only [inputOp, bind_ok_iff, pure_ok_iff]

/-- Input raises what its destination raises. -/
theorem inputOp_error_iff {m1 : Mode} {s : State} {f : FaultCause} :
    inputOp m1 s = .error f ↔ destOperand s m1 1 = .error f := by
  simp only [inputOp, bind_error_iff, pure_error_iff, and_false, exists_false, or_false]

/-- All that Output does when it completes. -/
theorem outputOp_ok_iff {m1 : Mode} {s t : State} :
    outputOp m1 s = .ok t ↔ ∃ a, readOperand s m1 1 = .ok a ∧ advance (emit s a) 2 = t := by
  simp only [outputOp, bind_ok_iff, pure_ok_iff]

/-- Output raises what its operand raises. -/
theorem outputOp_error_iff {m1 : Mode} {s : State} {f : FaultCause} :
    outputOp m1 s = .error f ↔ readOperand s m1 1 = .error f := by
  simp only [outputOp, bind_error_iff, pure_error_iff, and_false, exists_false, or_false]

/-- Every instruction answers a next state: none is refused and none stops. -/
theorem exec_next (i : Instr) (s : State) : ∃ t, exec i s = .next t := by
  have h : ∀ x : Except FaultCause State, ∃ t, complete s x = .next t := by
    intro x
    cases x <;> simp
  cases i
  case halt => exact ⟨_, rfl⟩
  all_goals exact h _

/-- Everything an instruction can do, said once: fault entry alone; a store to its store target and the
fall-through; an output and the fall-through; a jump's fall-through or target; or Halt. -/
theorem exec_next_cases {i : Instr} {s t : State} (h : exec i s = .next t) :
    (∃ f, t = raise s f) ∨
      (∃ d v, storeTarget i s = some d ∧ inBounds s d = true ∧
        t = advance (memWrite s d v) i.opcode.length) ∨
      (∃ m1 high v, i = .output m1 high ∧ readOperand s m1 1 = .ok v ∧ t = advance (emit s v) 2) ∨
      (∃ m1 m2 high, (i = .jumpIfTrue m1 m2 high ∨ i = .jumpIfFalse m1 m2 high) ∧
        (t = advance s 3 ∨ ∃ p, readOperand s m2 2 = .ok p ∧ t = setPc s p)) ∨
      ((∃ high, i = .halt high) ∧ t = setHalted s) := by
  have store : ∀ {result m1 m2 m3}, storeTarget i s = (destOperand s m3 3).toOption →
      i.opcode.length = 4 → complete s (binaryOp result m1 m2 m3 s) = .next t →
      (∃ f, t = raise s f) ∨ ∃ d v, storeTarget i s = some d ∧ inBounds s d = true ∧
        t = advance (memWrite s d v) i.opcode.length := by
    intro result m1 m2 m3 hst hlen hc
    rcases complete_cases hc with hc | ⟨f, _, hf⟩
    · obtain ⟨a, _, b, _, r, _, d, hd, rfl⟩ := binaryOp_ok_iff.1 hc
      exact .inr ⟨d, r, by rw [hst, hd]; rfl, destOperand_inBounds hd, by rw [hlen]⟩
    · exact .inl ⟨f, hf⟩
  have jump : ∀ {taken m1 m2 high}, (i = .jumpIfTrue m1 m2 high ∨ i = .jumpIfFalse m1 m2 high) →
      complete s (condJump taken m1 m2 s) = .next t →
      (∃ f, t = raise s f) ∨ ∃ m1 m2 high,
        (i = .jumpIfTrue m1 m2 high ∨ i = .jumpIfFalse m1 m2 high) ∧
          (t = advance s 3 ∨ ∃ p, readOperand s m2 2 = .ok p ∧ t = setPc s p) := by
    intro taken m1 m2 high hi hc
    rcases complete_cases hc with hc | ⟨f, _, hf⟩
    · obtain ⟨c, _, ⟨_, p, hp, rfl⟩ | ⟨_, rfl⟩⟩ := condJump_ok_iff.1 hc
      · exact .inr ⟨m1, m2, high, hi, .inr ⟨p, hp, rfl⟩⟩
      · exact .inr ⟨m1, m2, high, hi, .inl rfl⟩
    · exact .inl ⟨f, hf⟩
  cases i with
  | add m1 m2 m3 high => exact (store rfl rfl h).imp id .inl
  | multiply m1 m2 m3 high => exact (store rfl rfl h).imp id .inl
  | lessThan m1 m2 m3 high => exact (store rfl rfl h).imp id .inl
  | equals m1 m2 m3 high => exact (store rfl rfl h).imp id .inl
  | input m1 high =>
    rcases complete_cases h with hc | ⟨f, _, hf⟩
    · obtain ⟨d, hd, rfl⟩ := inputOp_ok_iff.1 hc
      exact .inr (.inl ⟨d, s.inlat, by simp [storeTarget, hd, Except.toOption],
        destOperand_inBounds hd, rfl⟩)
    · exact .inl ⟨f, hf⟩
  | output m1 high =>
    rcases complete_cases h with hc | ⟨f, _, hf⟩
    · obtain ⟨v, hv, rfl⟩ := outputOp_ok_iff.1 hc
      exact .inr (.inr (.inl ⟨m1, high, v, rfl, hv, rfl⟩))
    · exact .inl ⟨f, hf⟩
  | jumpIfTrue m1 m2 high => exact (jump (high := high) (.inl rfl) h).imp id (.inr ∘ .inr ∘ .inl)
  | jumpIfFalse m1 m2 high => exact (jump (high := high) (.inr rfl) h).imp id (.inr ∘ .inr ∘ .inl)
  | halt high =>
    have h' : Host.Outcome.next (setHalted s) = Host.Outcome.next t := h
    injection h' with h'
    exact .inr (.inr (.inr (.inr ⟨⟨high, rfl⟩, h'.symm⟩)))

end Sys2Proof.Machine
end

