-- ==== Sys2Proof/Laws/PerInstr.lean ====
section
/-! SUPPORT. A statement made per instruction: the word of an instruction carries its opcode in the two
low digits (spec/30_encoding.md R45, R46), whatever its modes and unread digits are. -/

namespace Sys2Proof.Laws.OpcodeOfWord

/-- The opcode of the encoded word is the instruction's. -/
def Statement (i : Instr) : Prop := opc (encode i) = (i.opcode.number : Int)

theorem of_digits (i : Instr) : Statement i := opc_of_digits i.opcode.number_lt

theorem add (m1 m2 m3 : Mode) (high : Nat) : Statement (.add m1 m2 m3 high) := of_digits _
theorem multiply (m1 m2 m3 : Mode) (high : Nat) : Statement (.multiply m1 m2 m3 high) := of_digits _
theorem input (m1 : Mode) (high : Nat) : Statement (.input m1 high) := of_digits _
theorem output (m1 : Mode) (high : Nat) : Statement (.output m1 high) := of_digits _
theorem jumpIfTrue (m1 m2 : Mode) (high : Nat) : Statement (.jumpIfTrue m1 m2 high) := of_digits _
theorem jumpIfFalse (m1 m2 : Mode) (high : Nat) : Statement (.jumpIfFalse m1 m2 high) := of_digits _
theorem lessThan (m1 m2 m3 : Mode) (high : Nat) : Statement (.lessThan m1 m2 m3 high) := of_digits _
theorem equals (m1 m2 m3 : Mode) (high : Nat) : Statement (.equals m1 m2 m3 high) := of_digits _
theorem halt (high : Nat) : Statement (.halt high) := of_digits _

end Sys2Proof.Laws.OpcodeOfWord
end

