-- ==== Sys2Proof/Laws/Step.lean ====
section
/-! SUPPORT. What a step can do, said once. -/

namespace Sys2Proof.Machine

theorem fetchInstr_outside {s : State} (h : inBounds s s.pc = false) :
    fetchInstr s = .error (.outOfBounds s.pc 0) := by
  simp [fetchInstr, h]

theorem fetchInstr_decoded {s : State} {i : Instr} (h : inBounds s s.pc = true)
    (hd : decode (memRead s s.pc) = .ok i) : fetchInstr s = .ok i := by
  simp [fetchInstr, h, hd]

theorem fetchInstr_unknown {s : State} {w : Int} (h : inBounds s s.pc = true)
    (hd : decode (memRead s s.pc) = .error (.unknownOpcode w)) :
    fetchInstr s = .error (.unknownOpcode w) := by
  simp [fetchInstr, h, hd]

/-- The fetch answers an instruction exactly when pc is in bounds and its word decodes to it. -/
theorem fetchInstr_ok_iff {s : State} {i : Instr} :
    fetchInstr s = .ok i ↔ inBounds s s.pc = true ∧ decode (memRead s s.pc) = .ok i := by
  cases h : inBounds s s.pc with
  | false => simp [fetchInstr_outside h]
  | true =>
    cases hd : decode (memRead s s.pc) with
    | ok j => simp [fetchInstr_decoded h hd]
    | error e =>
      cases e
      simp [fetchInstr_unknown h hd]

/-- All that the fetch can raise: OutOfBounds for pc, or UnknownOpcode with the whole word. -/
theorem fetchInstr_error_iff {s : State} {f : FaultCause} :
    fetchInstr s = .error f ↔
      (inBounds s s.pc = false ∧ f = .outOfBounds s.pc 0) ∨
        (inBounds s s.pc = true ∧ ∃ w, decode (memRead s s.pc) = .error (.unknownOpcode w) ∧
          f = .unknownOpcode w) := by
  cases h : inBounds s s.pc with
  | false => simp [fetchInstr_outside h, eq_comm]
  | true =>
    cases hd : decode (memRead s s.pc) with
    | ok j => simp [fetchInstr_decoded h hd]
    | error e =>
      cases e
      simp [fetchInstr_unknown h hd, eq_comm]

/-- A next state of a step: the machine was RUNNING, and the step is the fetched instruction's or the
fault entry of the fetch. -/
theorem step_next_iff {s t : State} :
    step s = .next t ↔ s.status = .running ∧
      ((∃ i, fetchInstr s = .ok i ∧ exec i s = .next t) ∨
        ∃ f, fetchInstr s = .error f ∧ raise s f = t) := by
  unfold step
  cases hs : s.status <;> simp
  cases hf : fetchInstr s <;> simp

/-- No step exists unless the status is RUNNING, so a next state has a RUNNING state before it. -/
theorem status_of_step {s t : State} (h : step s = .next t) : s.status = .running :=
  (step_next_iff.1 h).1

/-- The host's run of any machine, one step at a time. -/
theorem run_succ (M : Host.Core) (n : Nat) (s : M.State) :
    M.run (n + 1) s =
      match M.step s with
      | .next u => M.run n u
      | .fault r => .fault r
      | .refused r => .refused r := by
  cases h : M.step s <;> simp only [Host.Core.run, h]

/-- A run of `n + 1` steps is a step and a run of `n` steps. -/
theorem run_succ_iff {n : Nat} {s t : State} :
    Host.Core.run Sys2Proof.core (n + 1) s = .next t ↔
      ∃ u, step s = .next u ∧ Host.Core.run Sys2Proof.core n u = .next t := by
  have e : Sys2Proof.core.step s = step s := rfl
  have h := run_succ Sys2Proof.core n s
  rw [e] at h
  cases hs : step s <;> rw [hs] at h <;> rw [h] <;> simp

/-- What every step keeps, every run keeps. -/
theorem run_keeps {P : State → Prop} (hstep : ∀ s t, P s → step s = .next t → P t) {n : Nat}
    {s t : State} (hs : P s) (h : Host.Core.run Sys2Proof.core n s = .next t) : P t := by
  induction n generalizing s with
  | zero =>
    have h' : Host.Outcome.next s = Host.Outcome.next t := h
    injection h' with h'
    exact h' ▸ hs
  | succ n ih =>
    obtain ⟨u, hu, hn⟩ := run_succ_iff.1 h
    exact ih (hstep s u hs hu) hn

end Sys2Proof.Machine
end

