-- ==== Sys2Proof/Tests/Slice0.lean ====
section
/-! SUPPORT. Tests: ill-formed terms refused, the decoding of written-out words, single steps from the
spec's vectors (spec/95_test_vectors.md), the host interface, and for each statement with hypotheses a
state that meets them. Expected values are the spec's. -/

namespace Sys2Proof.Tests

open Sys2Proof.Machine

/-! ### Helpers -/

/-- A RUNNING block with image `im`, pc `p` and latch `v`. -/
def at' (im : List Int) (p v : Int) : State :=
  { State.reset with mem := Memory.ofList im, len := im.length, pc := p, status := .running, inlat := v }

/-- A RUNNING block right after LOAD and START. -/
def boot (im : List Int) (v : Int) : State := (hostStart v (hostLoad im State.reset).1).1

/-- The same under the WRAP policy. -/
def bootWrap (im : List Int) : State :=
  (hostStart 0 (hostLoad im (State.powerOn { Config.default with overflow := .wrap })).1).1

/-- Status, pc and memory after one step. -/
def look (s : State) : Option (Status × Int × List Int) :=
  match step s with
  | .next t => some (t.status, t.pc, memoryImage t)
  | .fault _ => none
  | .refused _ => none

/-- The fault record after one step. -/
def record (s : State) : Option FaultRecord :=
  match step s with
  | .next t => some t.fault
  | .fault _ => none
  | .refused _ => none

/-- The output log after one step. -/
def outs (s : State) : Option (List Int) :=
  match step s with
  | .next t => some t.out
  | .fault _ => none
  | .refused _ => none

/-! ### Well-formedness: one ill-formed term per check -/

theorem test_mode_digit_0_is_position : (Mode.unknown 0).wellFormed = false := by decide
theorem test_mode_digit_1_is_immediate : (Mode.unknown 1).wellFormed = false := by decide
theorem test_mode_digit_10_is_no_digit : (Mode.unknown 10).wellFormed = false := by decide
theorem test_instr_bad_mode_refused :
    (Instr.add .position .immediate (.unknown 10) 0).wellFormed = false := by decide
theorem test_instr_too_wide_refused : encodable 16 (.halt 1000) = false := by decide
theorem test_config_too_large_refused :
    configWellFormed { Config.default with memWords := 2 ^ 63 - 3 } = false := by decide

/-! ### Decoding: words written out from 30_encoding.md R45 (digits ABCDE) -/

theorem test_decode_add : decode 1001 = .ok (.add .position .immediate .position 0) := by decide
theorem test_decode_multiply : decode 20102 = .ok (.multiply .immediate .position (.unknown 2) 0) := by
  decide
theorem test_decode_input : decode 7203 = .ok (.input (.unknown 2) 7) := by decide
theorem test_decode_output : decode 104 = .ok (.output .immediate 0) := by decide
theorem test_decode_jumpIfTrue : decode 21105 = .ok (.jumpIfTrue .immediate .immediate 2) := by decide
theorem test_decode_jumpIfFalse : decode 1006 = .ok (.jumpIfFalse .position .immediate 0) := by decide
theorem test_decode_lessThan : decode 1107 = .ok (.lessThan .immediate .immediate .position 0) := by
  decide
theorem test_decode_equals : decode 130008 = .ok (.equals .position .position (.unknown 3) 1) := by
  decide
theorem test_decode_halt : decode 99999 = .ok (.halt 999) := by decide
theorem test_decode_negative : decode (-99) = .error (.unknownOpcode (-99)) := by decide
theorem test_encode_add : encode (.add .position .immediate .position 0) = 1001 := by decide
theorem test_encode_equals : encode (.equals .position .position (.unknown 3) 1) = 130008 := by decide

/-- 30_encoding.md R58: `ADD 4, #3 -> 4` is `1001, 4, 3, 4`. -/
theorem test_assemble_add : (AsmLine.add (.cell 4) (.literal 3) 4).assemble = [1001, 4, 3, 4] := by decide
/-- Program P4, line 17 (JMP #6) of 95_test_vectors.md section 3. -/
theorem test_assemble_jmp : (AsmLine.jmp (.literal 6)).assemble = [1105, 1, 6] := by decide

/-! ### The table's words and the placing of one instruction -/

theorem test_table_word_add : decodeTableWord 64 1 = some (.add .position .position .position 0) := by
  decide
theorem test_table_word_negative : decodeTableWord 64 (2 ^ 64 - 1) = none := by decide
/-- OUT of the literal 7: the second word's bits stand above the first's. -/
theorem test_placed_word_runs :
    outs (State.reset.withFetchWord 128 (104 + 2 ^ 64 * 7)) = some [7] := by decide

/-! ### Single steps (95_test_vectors.md) -/

/-- T2, step 1: the sum is written into the instruction word itself. -/
theorem test_add_self : look (boot [1, 0, 0, 0, 99] 0) = some (.running, 4, [2, 0, 0, 0, 99]) := by decide
/-- T26: MAX + 1 under FAULT. -/
theorem test_add_overflow :
    record (boot [1101, 9223372036854775807, 1, 5, 99, 0] 0) = some ⟨5, 0, 1101, 0, 0⟩ := by decide
/-- T4, step 1: an Immediate second operand. -/
theorem test_multiply_immediate :
    look (boot [1002, 4, 3, 4, 33] 0) = some (.running, 4, [1002, 4, 3, 4, 99]) := by decide
/-- T44w: MIN * -1 under WRAP. -/
theorem test_multiply_wrap :
    look (bootWrap [1102, -9223372036854775808, -1, 5, 99, 0]) =
      some (.running, 4, [1102, -9223372036854775808, -1, 5, 99, -9223372036854775808]) := by decide
/-- T50, step 1. -/
theorem test_input : look (boot [3, 0, 99] 5) = some (.running, 2, [5, 0, 99]) := by decide
/-- T52: an Immediate destination. -/
theorem test_input_immediate : record (boot [103, 0, 99] 0) = some ⟨4, 0, 1, 1, 0⟩ := by decide
/-- T60, step 1. -/
theorem test_output : outs (boot [4, 3, 99, -8] 0) = some [-8] := by decide
/-- T66: the Immediate operand cell is past the end. -/
theorem test_output_past_end : record (boot [104] 0) = some ⟨3, 0, 0, 1, 1⟩ := by decide
/-- T73: not taken, operand 2 is not read. -/
theorem test_jumpIfTrue_lazy :
    look (boot [105, 0, 777, 99] 0) = some (.running, 3, [105, 0, 777, 99]) := by decide
/-- T76: a negative target is loaded unchecked. -/
theorem test_jumpIfTrue_negative : look (boot [1105, 1, -1] 0) = some (.running, -1, [1105, 1, -1]) := by
  decide
/-- T82: both operands Position. -/
theorem test_jumpIfFalse_position :
    look (boot [6, 5, 6, 99, 99, 0, 4] 0) = some (.running, 4, [6, 5, 6, 99, 99, 0, 4]) := by decide
/-- T81: not taken on a negative value. -/
theorem test_jumpIfFalse_negative :
    look (boot [1106, -3, 4, 99, 99] 0) = some (.running, 3, [1106, -3, 4, 99, 99]) := by decide
/-- T92: the comparison is signed. -/
theorem test_lessThan_signed :
    look (boot [1107, -1, 0, 5, 99, 9] 0) = some (.running, 4, [1107, -1, 0, 5, 99, 1]) := by decide
/-- T91: equal is not less. -/
theorem test_lessThan_equal :
    look (boot [1107, 5, 5, 5, 99, 9] 0) = some (.running, 4, [1107, 5, 5, 5, 99, 0]) := by decide
/-- T97: compares M[0] with itself and overwrites its own instruction word. -/
theorem test_equals_self : look (boot [8, 0, 0, 0, 99] 0) = some (.running, 4, [1, 0, 0, 0, 99]) := by
  decide
/-- T96: equality of whole words. -/
theorem test_equals_sign :
    look (boot [1108, 7, -7, 5, 99, 9] 0) = some (.running, 4, [1108, 7, -7, 5, 99, 0]) := by decide
/-- T111: Halt's digits are not examined. -/
theorem test_halt_digits : look (boot [299] 0) = some (.halted, 0, [299]) := by decide
/-- T10: an empty image. -/
theorem test_fetch_empty : record (boot [] 0) = some ⟨3, 0, 0, 0, 0⟩ := by decide
/-- T33: operand 1 is checked before operand 2. -/
theorem test_priority_operand1 : record (boot [1, 100, 200, 0, 99] 0) = some ⟨3, 0, 0, 1, 100⟩ := by
  decide
/-- T34: the mode digit of operand 3 is checked before its index. -/
theorem test_priority_mode : record (boot [20001, 0, 0, 100, 99] 0) = some ⟨2, 0, 2, 3, 0⟩ := by decide

/-! ### The host interface (95_test_vectors.md section 2.10) -/

/-- T120: HOST_WRITE before START. -/
theorem test_host_write :
    memoryImage (hostWrite 2 4 (hostWrite 1 4 (hostLoad [1, 0, 0, 0, 99] State.reset).1).1).1 =
      [1, 4, 4, 0, 99] := by decide
/-- T123: HOST_READ out of bounds. -/
theorem test_host_read_refused :
    (hostRead 1 (hostLoad [99] State.reset).1).2 = .refused (.outOfRange 1) := by decide
/-- T125: an image longer than MEM_WORDS. -/
theorem test_load_refused :
    hostLoad [1, 2, 3] (State.powerOn { Config.default with memWords := 2 }) =
      (State.powerOn { Config.default with memWords := 2 }, .refused .imageTooLong) := by decide
/-- R23: the host reads the latch while the block runs. -/
theorem test_host_read_latch :
    (hostApply .readLatch (boot [3, 0, 99] (-5))).2 = .word (-5) := by decide
/-- R101: the first output event of T62 has number 0. -/
theorem test_event : stepEvent (boot [104, 1, 104, 2, 99] 0) = some (0, 1) := by decide
/-- R17: the status codes. -/
theorem test_status_codes :
    Status.ready.code = 0 ∧ Status.running.code = 1 ∧ Status.halted.code = 2 ∧
      Status.faulted.code = 3 := by decide

/-! ### Witnesses: for each statement with hypotheses, a state and operands that meet them together -/

/-- Two Immediate operands `a` and `b` and a destination cell holding `d`. -/
def addImm (a b d : Int) : State := boot [1101, a, b, d, 99, 0] 0

/-- The same under WRAP. -/
def addWrap (a b d : Int) : State := bootWrap [1101, a, b, d, 99, 0]

/-- A state that is still RUNNING is no faulted one. -/
theorem ne_raise {s t : State} (h : t.status = .running) (f : FaultCause) : t ≠ raise s f := by
  rintro rfl
  cases h

theorem witness_DecodeEncodeRoundTrip :
    (Instr.add .position (.unknown 9) .immediate 5).wellFormed = true := by decide

theorem witness_EncodeDecodeRoundTrip :
    decode 290101 = .ok (.add .immediate .position (.unknown 9) 2) := by decide

theorem witness_DecimalFieldsOfAWord : (0 : Int) ≤ 0 ∧ (0 : Int) ≤ 99999 := by decide

theorem witness_AbsentDigitsSelectPosition :
    ((1 : Nat) ≤ 1 ∧ (1 : Nat) ≤ 3 ∧ (0 : Int) ≤ 99 ∧ (99 : Int) < ((10 ^ (1 + 1) : Nat) : Int)) ∧
      ((1 : Nat) ≤ 3 ∧ (3 : Nat) ≤ 3 ∧ (0 : Int) ≤ 9999 ∧ (9999 : Int) < ((10 ^ (3 + 1) : Nat) : Int)) := by
  decide

theorem witness_ExactlyNineOpcodes :
    decode 108 = .ok (.equals .immediate .position .position 0) ∧ Int.tmod 108 100 = 8 := by decide

theorem witness_NegativeWordsAreNoInstruction : (-1 : Int) < 0 ∧ (-199 : Int) < 0 := by decide

theorem witness_UnreadDigitsHaveNoEffect :
    ∃ t, exec (.output .immediate 0) (boot [104, 7, 99] 0) = .next t ∧
      ∀ w, t ≠ raise (boot [104, 7, 99] 0) (.arithmeticOverflow w) :=
  ⟨_, rfl, fun _ h => ne_raise rfl _ h⟩

theorem witness_AssembledLineDecodes :
    (AsmLine.jmp (.literal 6)).expand.instr? = some (.jumpIfTrue .immediate .immediate 0) := by decide

theorem witness_StepRunsTheDecodedInstruction :
    (boot [99] 0).status = .running ∧ InImage (boot [99] 0) (boot [99] 0).pc ∧
      decode (memRead (boot [99] 0) (boot [99] 0).pc) = .ok (.halt 0) := by decide

/-- One word for each clause of the dispatch table, the last for an opcode that is not listed. -/
theorem witness_DispatchByOpcode :
    ∀ p ∈ ([(1, 1), (20002, 2), (103, 3), (204, 4), (1105, 5), (6, 6), (7, 7), (11108, 8), (299, 99),
        (42, 42), (-99, -99)] : List (Int × Int)),
      (boot [p.1] 0).status = .running ∧ InImage (boot [p.1] 0) (boot [p.1] 0).pc ∧
        memRead (boot [p.1] 0) (boot [p.1] 0).pc = p.1 ∧ Int.tmod p.1 100 = p.2 := by decide

theorem witness_IllegalOpcodesRaise :
    ∀ w ∈ ([0, 9, 98, -1, -99] : List Int),
      (boot [w] 0).status = .running ∧ InImage (boot [w] 0) (boot [w] 0).pc ∧
        (Int.tmod (memRead (boot [w] 0) (boot [w] 0).pc) 100 = 0 ∨
          (9 ≤ Int.tmod (memRead (boot [w] 0) (boot [w] 0).pc) 100 ∧
            Int.tmod (memRead (boot [w] 0) (boot [w] 0).pc) 100 ≤ 98) ∨
          Int.tmod (memRead (boot [w] 0) (boot [w] 0).pc) 100 < 0) := by decide

theorem witness_FetchOutsideImageFaults :
    ∀ p ∈ ([-1, 1] : List Int), (at' [99] p 0).status = .running ∧ ¬ InImage (at' [99] p 0) (at' [99] p 0).pc := by
  decide

theorem witness_StepEndsInThreeWays :
    (boot [99] 0).status = .running ∧ ∃ t, step (boot [99] 0) = .next t := ⟨by decide, _, rfl⟩

theorem witness_NoStepUnlessRunning :
    State.reset.status ≠ .running ∧ (setHalted State.reset).status ≠ .running ∧
      (raise State.reset (.outOfBounds 0 0)).status ≠ .running := by decide

theorem witness_NextPcIsFallThroughOrTarget :
    ∃ t, exec (.jumpIfTrue .immediate .immediate 0) (boot [1105, 1, 0] 0) = .next t := ⟨_, rfl⟩

/-- A RUNNING block whose word at pc is `i` and which stores `v` where it fetches next. -/
def StoresNext (s : State) (i : Instr) (v : Int) : Prop :=
  (s.status = .running ∧ InImage s s.pc ∧ decode (memRead s s.pc) = .ok i) ∧
    StoresWord i s (s.pc + (i.opcode.length : Int)) v

/-- Each storing instruction: an Add that fits, an Add that wraps, `[1002,4,3,4,33]` of 20_memory.md R37,
an Input of 99, and comparisons that write 1 (an Add) and 0 (no instruction). -/
theorem witness_WrittenWordIsFetchedNext :
    StoresNext (addImm 90 9 4) (.add .immediate .immediate .position 0) 99 ∧
      StoresNext (addWrap 9223372036854775807 1 4) (.add .immediate .immediate .position 0)
        (-9223372036854775808) ∧
      StoresNext (boot [1002, 4, 3, 4, 33] 0) (.multiply .position .immediate .position 0) 99 ∧
      StoresNext (boot [3, 2, 0] 99) (.input .position 0) 99 ∧
      StoresNext (boot [1107, -1, 0, 4, 0] 0) (.lessThan .immediate .immediate .position 0) 1 ∧
      StoresNext (boot [1108, 7, -7, 4, 99] 0) (.equals .immediate .immediate .position 0) 0 :=
  ⟨⟨by decide, 90, 9, readsAs_immediate (by decide), readsAs_immediate (by decide),
      writesTo_position (by decide), .inl (by decide)⟩,
    ⟨by decide, 9223372036854775807, 1, readsAs_immediate (by decide), readsAs_immediate (by decide),
      writesTo_position (by decide), .inr (by decide)⟩,
    ⟨by decide, 33, 3, readsAs_position (by decide), readsAs_immediate (by decide),
      writesTo_position (by decide), .inl (by decide)⟩,
    ⟨by decide, writesTo_position (by decide), rfl⟩,
    ⟨by decide, -1, 0, readsAs_immediate (by decide), readsAs_immediate (by decide),
      writesTo_position (by decide), rfl⟩,
    ⟨by decide, 7, -7, readsAs_immediate (by decide), readsAs_immediate (by decide),
      writesTo_position (by decide), rfl⟩⟩

/-- The clause about a step: R37's Multiply. -/
theorem witness_WrittenWordIsFetchedNext_step :
    let s := boot [1002, 4, 3, 4, 33] 0
    ∃ t, step s = .next t ∧ (∀ f, t ≠ raise s f) ∧
      decode (memRead s s.pc) = .ok (.multiply .position .immediate .position 0) ∧
      storeTarget (.multiply .position .immediate .position 0) s = some t.pc ∧
      decode (memRead t t.pc) = .ok (.halt 0) :=
  ⟨_, rfl, fun _ h => ne_raise rfl _ h, by decide, by decide, by decide⟩

/-- Every clause of Add: fits, wraps, and the four faults; the values are at the ends of the range. -/
theorem witness_AddInstruction :
    ((0 : Int) ≤ 1 ∧ Int.tmod 1 100 = 1) ∧
    (ReadsAs (addImm 9223372036854775806 1 5) .immediate 1 9223372036854775806 ∧
      ReadsAs (addImm 9223372036854775806 1 5) .immediate 2 1 ∧
      WritesTo (addImm 9223372036854775806 1 5) .position 3 5 ∧
      IsWord (addImm 9223372036854775806 1 5) (9223372036854775806 + 1)) ∧
    (ReadsAs (addWrap 9223372036854775807 1 5) .immediate 1 9223372036854775807 ∧
      ReadsAs (addWrap 9223372036854775807 1 5) .immediate 2 1 ∧
      WritesTo (addWrap 9223372036854775807 1 5) .position 3 5 ∧
      ¬ IsWord (addWrap 9223372036854775807 1 5) (9223372036854775807 + 1) ∧
      (addWrap 9223372036854775807 1 5).cfg.overflow = .wrap) ∧
    ReadRaises (boot [1] 0) .position 1 (.outOfBounds 1 1) ∧
    (ReadsAs (boot [101, 7] 0) .immediate 1 7 ∧ ReadRaises (boot [101, 7] 0) .position 2 (.outOfBounds 2 2)) ∧
    (ReadsAs (addImm 9223372036854775807 1 5) .immediate 1 9223372036854775807 ∧
      ReadsAs (addImm 9223372036854775807 1 5) .immediate 2 1 ∧
      ¬ IsWord (addImm 9223372036854775807 1 5) (9223372036854775807 + 1) ∧
      (addImm 9223372036854775807 1 5).cfg.overflow = .fault) ∧
    (ReadsAs (addImm 2 3 6) .immediate 1 2 ∧ ReadsAs (addImm 2 3 6) .immediate 2 3 ∧
      IsWord (addImm 2 3 6) (2 + 3) ∧ WriteRaises (addImm 2 3 6) .position 3 (.outOfBounds 6 3)) :=
  ⟨by decide,
    ⟨readsAs_immediate (by decide), readsAs_immediate (by decide),
      writesTo_position (by decide), by decide⟩,
    ⟨readsAs_immediate (by decide), readsAs_immediate (by decide),
      writesTo_position (by decide), by decide, by decide⟩,
    readRaises_cell (.inl rfl) (by decide),
    ⟨readsAs_immediate (by decide), readRaises_cell (.inl rfl) (by decide)⟩,
    ⟨readsAs_immediate (by decide), readsAs_immediate (by decide), by decide, by decide⟩,
    ⟨readsAs_immediate (by decide), readsAs_immediate (by decide), by decide,
      writeRaises_index (by decide)⟩⟩

/-- Every clause of Multiply; 2^32 * 2^32 does not fit, MIN * 1 does. -/
theorem witness_MultiplyInstruction :
    ((0 : Int) ≤ 2 ∧ Int.tmod 2 100 = 2) ∧
    (ReadsAs (addImm (-9223372036854775808) 1 5) .immediate 1 (-9223372036854775808) ∧
      ReadsAs (addImm (-9223372036854775808) 1 5) .immediate 2 1 ∧
      WritesTo (addImm (-9223372036854775808) 1 5) .position 3 5 ∧
      IsWord (addImm (-9223372036854775808) 1 5) (-9223372036854775808 * 1)) ∧
    (ReadsAs (addWrap 4294967296 4294967296 5) .immediate 1 4294967296 ∧
      ReadsAs (addWrap 4294967296 4294967296 5) .immediate 2 4294967296 ∧
      WritesTo (addWrap 4294967296 4294967296 5) .position 3 5 ∧
      ¬ IsWord (addWrap 4294967296 4294967296 5) (4294967296 * 4294967296) ∧
      (addWrap 4294967296 4294967296 5).cfg.overflow = .wrap) ∧
    ReadRaises (boot [202, 0] 0) (.unknown 2) 1 (.unknownAddressingMode 2 1) ∧
    (ReadsAs (boot [102, 7] 0) .immediate 1 7 ∧ ReadRaises (boot [102, 7] 0) .position 2 (.outOfBounds 2 2)) ∧
    (ReadsAs (addImm 4294967296 4294967296 5) .immediate 1 4294967296 ∧
      ReadsAs (addImm 4294967296 4294967296 5) .immediate 2 4294967296 ∧
      ¬ IsWord (addImm 4294967296 4294967296 5) (4294967296 * 4294967296) ∧
      (addImm 4294967296 4294967296 5).cfg.overflow = .fault) ∧
    (ReadsAs (addImm 2 3 (-1)) .immediate 1 2 ∧ ReadsAs (addImm 2 3 (-1)) .immediate 2 3 ∧
      IsWord (addImm 2 3 (-1)) (2 * 3) ∧ WriteRaises (addImm 2 3 (-1)) .position 3 (.outOfBounds (-1) 3)) :=
  ⟨by decide,
    ⟨readsAs_immediate (by decide), readsAs_immediate (by decide),
      writesTo_position (by decide), by decide⟩,
    ⟨readsAs_immediate (by decide), readsAs_immediate (by decide),
      writesTo_position (by decide), by decide, by decide⟩,
    .inl ⟨2, rfl, rfl⟩,
    ⟨readsAs_immediate (by decide), readRaises_cell (.inl rfl) (by decide)⟩,
    ⟨readsAs_immediate (by decide), readsAs_immediate (by decide), by decide, by decide⟩,
    ⟨readsAs_immediate (by decide), readsAs_immediate (by decide), by decide,
      writeRaises_index (by decide)⟩⟩

theorem witness_InputInstruction :
    ((0 : Int) ≤ 3 ∧ Int.tmod 3 100 = 3) ∧ WritesTo (boot [3, 0, 99] 5) .position 1 0 ∧
      WriteRaises (boot [103, 0, 99] 0) .immediate 1 (.immediateDestination 1) :=
  ⟨by decide, writesTo_position (by decide), .inr (.inl ⟨rfl, rfl⟩)⟩

theorem witness_InputChannelIsTheLatch :
    (State.reset.status = .ready ∧ IsWord State.reset 9223372036854775807) ∧
      ∃ u, Host.Core.run Sys2Proof.core 1 (boot [3, 5, 3, 6, 99, 0, 0] (-4)) = .next u ∧
        WritesTo u .position 1 6 :=
  ⟨by decide, _, rfl, writesTo_position (by decide)⟩

theorem witness_OutputInstruction :
    ((0 : Int) ≤ 4 ∧ Int.tmod 4 100 = 4) ∧ ReadsAs (boot [4, 3, 99, -8] 0) .position 1 (-8) ∧
      ReadRaises (boot [4, 4, 99, -8] 0) .position 1 (.outOfBounds 4 1) :=
  ⟨by decide, readsAs_position (by decide),
    readRaises_index (by decide)⟩

theorem witness_JumpIfTrueInstruction :
    ((0 : Int) ≤ 5 ∧ Int.tmod 5 100 = 5) ∧
      (ReadsAs (boot [1105, -1, 4] 0) .immediate 1 (-1) ∧ (-1 : Int) ≠ 0 ∧
        ReadsAs (boot [1105, -1, 4] 0) .immediate 2 4) ∧
      ReadsAs (boot [1105, 0, 4] 0) .immediate 1 0 ∧
      ReadRaises (boot [5] 0) .position 1 (.outOfBounds 1 1) ∧
      (ReadsAs (boot [105, 1, 777, 99] 0) .immediate 1 1 ∧ (1 : Int) ≠ 0 ∧
        ReadRaises (boot [105, 1, 777, 99] 0) .position 2 (.outOfBounds 777 2)) :=
  ⟨by decide, ⟨readsAs_immediate (by decide), by decide, readsAs_immediate (by decide)⟩,
    readsAs_immediate (by decide), readRaises_cell (.inl rfl) (by decide),
    readsAs_immediate (by decide), by decide, readRaises_index (by decide)⟩

theorem witness_JumpIfFalseInstruction :
    ((0 : Int) ≤ 6 ∧ Int.tmod 6 100 = 6) ∧
      (ReadsAs (boot [1106, 0, 4] 0) .immediate 1 0 ∧ ReadsAs (boot [1106, 0, 4] 0) .immediate 2 4) ∧
      (ReadsAs (boot [1106, -3, 4] 0) .immediate 1 (-3) ∧ (-3 : Int) ≠ 0) ∧
      ReadRaises (boot [6] 0) .position 1 (.outOfBounds 1 1) ∧
      (ReadsAs (boot [2106, 0, 4] 0) .immediate 1 0 ∧
        ReadRaises (boot [2106, 0, 4] 0) (.unknown 2) 2 (.unknownAddressingMode 2 2)) :=
  ⟨by decide, ⟨readsAs_immediate (by decide), readsAs_immediate (by decide)⟩,
    ⟨readsAs_immediate (by decide), by decide⟩, readRaises_cell (.inl rfl) (by decide),
    readsAs_immediate (by decide), .inl ⟨2, rfl, rfl⟩⟩

theorem witness_BadJumpTargetFaultsAtNextFetch :
    let s := boot [1105, 1, -1] 0
    let u := boot [1106, 0, 3] 0
    (s.status = .running ∧ InImage s s.pc ∧
      decode (memRead s s.pc) = .ok (.jumpIfTrue .immediate .immediate 0) ∧ (1 : Int) ≠ 0 ∧
      ReadsAs s .immediate 1 1 ∧ ReadsAs s .immediate 2 (-1) ∧ ¬ InImage s (-1)) ∧
    (u.status = .running ∧ InImage u u.pc ∧
      decode (memRead u u.pc) = .ok (.jumpIfFalse .immediate .immediate 0) ∧
      ReadsAs u .immediate 1 0 ∧ ReadsAs u .immediate 2 3 ∧ ¬ InImage u 3) :=
  ⟨⟨by decide, by decide, by decide, by decide, readsAs_immediate (by decide),
      readsAs_immediate (by decide), by decide⟩,
    by decide, by decide, by decide, readsAs_immediate (by decide),
      readsAs_immediate (by decide), by decide⟩

theorem witness_LessThanInstruction :
    ((0 : Int) ≤ 7 ∧ Int.tmod 7 100 = 7) ∧
      (ReadsAs (boot [1107, -1, 0, 5, 99, 9] 0) .immediate 1 (-1) ∧
        ReadsAs (boot [1107, -1, 0, 5, 99, 9] 0) .immediate 2 0 ∧
        WritesTo (boot [1107, -1, 0, 5, 99, 9] 0) .position 3 5) ∧
      ReadRaises (boot [7] 0) .position 1 (.outOfBounds 1 1) ∧
      (ReadsAs (boot [107, 3] 0) .immediate 1 3 ∧ ReadRaises (boot [107, 3] 0) .position 2 (.outOfBounds 2 2)) ∧
      (ReadsAs (boot [11107, 1, 2, 0] 0) .immediate 1 1 ∧ ReadsAs (boot [11107, 1, 2, 0] 0) .immediate 2 2 ∧
        WriteRaises (boot [11107, 1, 2, 0] 0) .immediate 3 (.immediateDestination 3)) :=
  ⟨by decide,
    ⟨readsAs_immediate (by decide), readsAs_immediate (by decide),
      writesTo_position (by decide)⟩,
    readRaises_cell (.inl rfl) (by decide),
    ⟨readsAs_immediate (by decide), readRaises_cell (.inl rfl) (by decide)⟩,
    readsAs_immediate (by decide), readsAs_immediate (by decide), .inr (.inl ⟨rfl, rfl⟩)⟩

theorem witness_EqualsInstruction :
    ((0 : Int) ≤ 8 ∧ Int.tmod 8 100 = 8) ∧
      (ReadsAs (boot [8, 0, 0, 0, 99] 0) .position 1 8 ∧ ReadsAs (boot [8, 0, 0, 0, 99] 0) .position 2 8 ∧
        WritesTo (boot [8, 0, 0, 0, 99] 0) .position 3 0) ∧
      ReadRaises (boot [8] 0) .position 1 (.outOfBounds 1 1) ∧
      (ReadsAs (boot [108, 3] 0) .immediate 1 3 ∧ ReadRaises (boot [108, 3] 0) .position 2 (.outOfBounds 2 2)) ∧
      (ReadsAs (boot [1108, 1, 2] 0) .immediate 1 1 ∧ ReadsAs (boot [1108, 1, 2] 0) .immediate 2 2 ∧
        WriteRaises (boot [1108, 1, 2] 0) .position 3 (.outOfBounds 3 3)) :=
  ⟨by decide,
    ⟨readsAs_position (by decide), readsAs_position (by decide),
      writesTo_position (by decide)⟩,
    readRaises_cell (.inl rfl) (by decide),
    ⟨readsAs_immediate (by decide), readRaises_cell (.inl rfl) (by decide)⟩,
    readsAs_immediate (by decide), readsAs_immediate (by decide),
    writeRaises_cell (by decide)⟩

theorem witness_CompareWritesZeroOrOne :
    ∃ t, exec (.lessThan .immediate .immediate .position 0) (boot [1107, -1, 0, 5, 99, 9] 0) = .next t ∧
      ∀ f, t ≠ raise (boot [1107, -1, 0, 5, 99, 9] 0) f :=
  ⟨_, rfl, fun _ h => ne_raise rfl _ h⟩

theorem witness_HaltInstruction :
    ((0 : Int) ≤ 99999 ∧ Int.tmod 99999 100 = 99) ∧ (-99 : Int) < 0 := by decide

theorem witness_OnlyHaltEndsSuccessfully :
    (setHalted State.reset).status = .halted ∧
      (∃ t, step (boot [99] 0) = .next t ∧ t.status = .halted) ∧
      ((at' [99] 1 0).status = .running ∧ ((at' [99] 1 0).len : Int) ≤ (at' [99] 1 0).pc) ∧
      ((boot [42] 0).status = .running ∧ InImage (boot [42] 0) (boot [42] 0).pc ∧
        decode (memRead (boot [42] 0) (boot [42] 0).pc) = .error (.unknownOpcode 42)) :=
  ⟨rfl, ⟨_, rfl, rfl⟩, by decide, by decide⟩

theorem witness_StoringInstructionsFrame :
    (Instr.input .position 0).opcode ∈ ([.add, .multiply, .lessThan, .equals, .input] : List Opcode) ∧
      (∃ t, exec (.input .position 0) (boot [3, 0, 99] 5) = .next t) ∧
      storeTarget (.input .position 0) (boot [3, 0, 99] 5) ≠ some ((1 : Nat) : Int) :=
  ⟨by decide, ⟨_, rfl⟩, by decide⟩

theorem witness_NonStoringInstructionsFrame :
    (Instr.output .immediate 0).opcode ∈ ([.output, .jumpIfTrue, .jumpIfFalse, .halt] : List Opcode) ∧
      ∃ t, exec (.output .immediate 0) (boot [104, 7, 99] 0) = .next t := ⟨by decide, _, rfl⟩

theorem witness_ArithmeticWritesOneCell :
    ∃ t, exec (.multiply .position .immediate .position 0) (boot [1002, 4, 3, 4, 33] 0) = .next t ∧
      ∀ f, t ≠ raise (boot [1002, 4, 3, 4, 33] 0) f :=
  ⟨_, rfl, fun _ h => ne_raise rfl _ h⟩

theorem witness_FaultsOfEachInstruction :
    ((boot [105, 1, 777, 99] 0).status ≠ .faulted ∧
      exec (.jumpIfTrue .immediate .position 0) (boot [105, 1, 777, 99] 0) =
        .next (raise (boot [105, 1, 777, 99] 0) (.outOfBounds 777 2))) ∧
      ((boot [-1] 0).status = .running ∧ InImage (boot [-1] 0) (boot [-1] 0).pc ∧
        decode (memRead (boot [-1] 0) (boot [-1] 0).pc) = .error (.unknownOpcode (-1))) :=
  ⟨⟨by decide, rfl⟩, by decide⟩

theorem witness_FaultsArePrecise :
    ∃ t, step (boot [103, 0, 99] 0) = .next t ∧ t.status = .faulted := ⟨_, rfl, rfl⟩

theorem witness_PowerOnMeetsTheInvariant :
    configWellFormed Config.default = true ∧ configWellFormed ⟨3, 0, .wrap⟩ = true := by decide

/-- The invariant of a RUNNING block whose next step adds. -/
theorem witness_StepKeepsTheInvariant :
    Inv (boot [1, 0, 0, 0, 99] 7) ∧ ∃ t, step (boot [1, 0, 0, 0, 99] 7) = .next t :=
  ⟨by constructor <;> decide, _, rfl⟩

theorem witness_HostOperationsKeepTheInvariant : Inv (boot [1, 0, 0, 0, 99] 7) :=
  witness_StepKeepsTheInvariant.1

theorem witness_RunKeepsLengthLatchAndLog :
    ∃ t, Host.Core.run Sys2Proof.core 2 (boot [104, 7, 99] 0) = .next t := ⟨_, rfl⟩

/-- Two states alike that differ in the log, the fault record and a cell past the image. -/
theorem witness_StepReadsOnlyTheProgramState :
    let s := boot [104, 7, 99] 0
    let u := { s with out := [1], fault := ⟨1, 2, 3, 0, 0⟩, mem := s.mem.write 3 5 }
    Alike s u ∧ ∃ t, step s = .next t := by
  refine ⟨⟨rfl, rfl, rfl, rfl, rfl, ?_⟩, _, rfl⟩
  intro a ha
  have h3 : a < 3 := ha
  have hne : a ≠ 3 := by omega
  exact (Memory.read_write_other (boot [104, 7, 99] 0).mem 5 hne).symm

theorem witness_RunHasOneOutcome : (boot [99] 0).status = .running := by decide

theorem witness_JumpToItselfNeverEnds :
    let s := boot [1105, 1, 0] 0
    let u := boot [1106, 0, 0] 0
    ((s.status = .running ∧ InImage s s.pc ∧
        decode (memRead s s.pc) = .ok (.jumpIfTrue .immediate .immediate 0) ∧ (1 : Int) ≠ 0) ∧
      ReadsAs s .immediate 1 1 ∧ ReadsAs s .immediate 2 s.pc) ∧
    (u.status = .running ∧ InImage u u.pc ∧
        decode (memRead u u.pc) = .ok (.jumpIfFalse .immediate .immediate 0)) ∧
      ReadsAs u .immediate 1 0 ∧ ReadsAs u .immediate 2 u.pc :=
  ⟨⟨by decide, readsAs_immediate (by decide), readsAs_immediate (by decide)⟩,
    by decide, readsAs_immediate (by decide), readsAs_immediate (by decide)⟩

/-- An image of MEM_WORDS words and one of MEM_WORDS + 1. -/
theorem witness_LoadPutsTheImage :
    let s := State.powerOn ⟨64, 2, .fault⟩
    (([3, 99] : List Int).length ≤ s.cfg.memWords ∧ ∀ v ∈ ([3, 99] : List Int), IsWord s v) ∧
      s.cfg.memWords < ([3, 0, 99] : List Int).length := by decide

theorem witness_PowerOnIsTheEmptyImage : IsWord (State.powerOn Config.default) 7 := by decide

theorem witness_StartOnlyFromReady :
    (State.reset.status = .ready ∧ IsWord State.reset (-9223372036854775808)) ∧
      (setHalted State.reset).status ≠ .ready := by decide

theorem witness_HostMemoryAccess :
    ((setHalted (boot [99] 0)).status = .halted ∧ InImage (setHalted (boot [99] 0)) 0 ∧
      IsWord (setHalted (boot [99] 0)) 5) ∧
      (boot [99] 0).status = .running ∧ ¬ InImage (setHalted (boot [99] 0)) 1 := by decide

theorem witness_RefusedOperationsChangeNothing :
    ∃ t e, hostApply .result State.reset = (t, .refused e) := ⟨_, _, rfl⟩

theorem witness_OnlyLoadLeavesTerminalStatus :
    (setHalted State.reset).status = .halted ∧ (raise State.reset (.outOfBounds 0 0)).status = .faulted ∧
      ∀ P, HostOp.result ≠ .load P := ⟨rfl, rfl, fun _ h => by cases h⟩

theorem witness_AbandonedSessionAcceptsOnlyLoad :
    (boot [99] 0).status = .running ∧ State.reset.status ≠ .running ∧
      (∀ P, HostOp.readState ≠ .load P) ∧ ∃ t, hostLoad [99] State.reset = (t, .done) :=
  ⟨by decide, by decide, (fun _ h => by cases h), _, rfl⟩

theorem witness_HostAccessRights :
    (setHalted State.reset).status = .halted ∧
      (∃ t r, hostApply (.hostRead 0) (boot [99] 5) = (t, r)) ∧
      (∀ P, HostOp.hostRead 0 ≠ .load P) ∧ (∀ v, HostOp.hostRead 0 ≠ .start v) ∧
      ∀ i v, HostOp.hostRead 0 ≠ .hostWrite i v :=
  ⟨rfl, ⟨_, _, rfl⟩, (fun _ h => by cases h), (fun _ h => by cases h), fun _ _ h => by cases h⟩

end Sys2Proof.Tests
end

/-! ### Encoding (spec/30_encoding.md): the fields of a word, the opcode map, and O3, O4, O5, O15 -/

namespace Sys2Proof

/-! #### The decimal fields of a non-negative word -/

/-- On a non-negative word the truncating remainder of R46 is the ordinary one. -/
theorem opc_of_nonneg {w : Int} (hw : 0 ≤ w) : opc w = w % 100 := Machine.remT_of_nonneg hw

/-- On a non-negative word the two divisions of R47 are one. -/
theorem modeDigit_of_nonneg {w : Int} (hw : 0 ≤ w) (k : Nat) :
    modeDigit w k = w / (100 * ((10 ^ (k - 1) : Nat) : Int)) % 10 := by
  have hq : 0 ≤ w / 100 := Int.ediv_nonneg hw (by decide)
  rw [modeDigit, Machine.divT_of_nonneg hw, Machine.divT_of_nonneg hq,
    Machine.remT_of_nonneg (Int.ediv_nonneg hq (Int.natCast_nonneg _)),
    Int.ediv_ediv_of_nonneg (by decide)]

theorem modeDigit_bounds {w : Int} (hw : 0 ≤ w) (k : Nat) :
    0 ≤ modeDigit w k ∧ modeDigit w k ≤ 9 := by
  rw [modeDigit_of_nonneg hw]
  omega

/-- The digit of operand `k` is decimal digit `k + 1` (R45, R47), so a smaller word lacks it. -/
theorem modeDigit_eq_zero_of_lt {w : Int} {k : Nat} (hk : 1 ≤ k) (hw : 0 ≤ w)
    (hlt : w < ((10 ^ (k + 1) : Nat) : Int)) : modeDigit w k = 0 := by
  have hpow : ((10 ^ (k + 1) : Nat) : Int) = 100 * ((10 ^ (k - 1) : Nat) : Int) := by
    obtain ⟨j, rfl⟩ := Nat.exists_eq_add_of_le' hk
    push_cast [Nat.add_sub_cancel]
    ring
  rw [modeDigit_of_nonneg hw, Int.ediv_eq_zero_of_lt hw (hpow ▸ hlt), Int.zero_emod]

/-- Settles O3: every field is a quotient and a remainder of `w` by constants. -/
theorem decimalFieldsOfAWord : Obligations.DecimalFieldsOfAWord := by
  intro w hw
  have hopc := opc_of_nonneg hw
  have h1 : modeDigit w 1 = w / 100 % 10 := modeDigit_of_nonneg hw 1
  have h2 : modeDigit w 2 = w / 1000 % 10 := modeDigit_of_nonneg hw 2
  have h3 : modeDigit w 3 = w / 10000 % 10 := modeDigit_of_nonneg hw 3
  have hhigh : Int.tdiv w 100000 = w / 100000 := Machine.divT_of_nonneg hw
  exact ⟨rfl, by omega, by omega, modeDigit_bounds hw, by omega⟩

/-- Settles O4: the digit is 0, and digit 0 is Position (R48). -/
theorem absentDigitsSelectPosition : Obligations.AbsentDigitsSelectPosition := by
  intro w k hk _ hw hlt
  have h0 := modeDigit_eq_zero_of_lt hk hw hlt
  exact ⟨h0, by simp [modeOf, Mode.ofDigit, h0]⟩

/-! #### The opcode map -/

/-- The map lists every opcode (R51). -/
theorem Opcode.mem_opcodeMap (o : Opcode) : o ∈ opcodeMap := by cases o <;> decide

theorem Opcode.number_inj {o o' : Opcode} : (o.number : Int) = (o'.number : Int) ↔ o = o' := by
  refine ⟨fun h => ?_, fun h => h ▸ rfl⟩
  exact Option.some.inj ((Opcode.ofNumber_iff.2 rfl).symm.trans (Opcode.ofNumber_iff.2 h))

/-- Every opcode's number is one of 1 to 8 or 99 (R50). -/
theorem Opcode.number_range (o : Opcode) : (1 ≤ o.number ∧ o.number ≤ 8) ∨ o.number = 99 := by
  cases o <;> decide

/-- The numbers that select an opcode are those of the rows of the map (R51). -/
theorem exists_number_iff {n : Int} :
    (∃ o : Opcode, n = (o.number : Int)) ↔ n ∈ opcodeMap.map (fun o => (o.number : Int)) := by
  simp [List.mem_map, Opcode.mem_opcodeMap, eq_comm]

/-- A word decodes exactly when its opcode is some opcode's number. -/
theorem exists_decode_ok_iff {w : Int} :
    (∃ i, decode w = .ok i) ↔ ∃ o : Opcode, opc w = (o.number : Int) := by
  constructor
  · rintro ⟨i, hi⟩
    obtain ⟨o, ho, -⟩ := decode_ok_iff.1 hi
    exact ⟨o, ho⟩
  · rintro ⟨o, ho⟩
    exact ⟨o.instrOf w, decode_ok_iff.2 ⟨o, ho, rfl⟩⟩

/-- The opcode of a decoded instruction is the one whose number the word carries. -/
theorem opcode_eq_iff_of_decode {w : Int} {i : Instr} (h : decode w = .ok i) (o : Opcode) :
    i.opcode = o ↔ opc w = (o.number : Int) := by
  obtain ⟨o', ho', rfl⟩ := decode_ok_iff.1 h
  rw [Opcode.instrOf_opcode, ho', Opcode.number_inj]

/-- A word whose opcode is no opcode's number is refused, and the error holds the whole word (R52). -/
theorem decode_of_unlisted {w : Int} (h : ∀ o : Opcode, opc w ≠ (o.number : Int)) :
    decode w = .error (.unknownOpcode w) := by
  unfold decode
  cases ho : Opcode.ofNumber (opc w) with
  | none => rfl
  | some o => exact absurd (Opcode.ofNumber_iff.1 ho) (h o)

/-- Settles O5: the nine remainders are the numbers of the opcode map's rows. -/
theorem exactlyNineOpcodes : Obligations.ExactlyNineOpcodes := by
  refine ⟨fun w => exists_decode_ok_iff.trans exists_number_iff, ?_⟩
  intro p hp w i hi
  have hrow : p.1 = (p.2.number : Int) := by
    revert p
    decide
  rw [hrow]
  exact opcode_eq_iff_of_decode hi p.2

/-- Settles O15: no opcode has a number in the ranges of R52, so the fetch raises UnknownOpcode. -/
theorem illegalOpcodesRaise : Obligations.IllegalOpcodesRaise := by
  intro s hrun hin hillegal
  have hnone : ∀ o : Opcode, opc (Machine.memRead s s.pc) ≠ (o.number : Int) := by
    intro o ho
    have hrem : Int.tmod (Machine.memRead s s.pc) 100 = (o.number : Int) := ho
    have hrange := o.number_range
    omega
  have hfetch := Machine.fetchInstr_unknown (Machine.inBounds_iff.2 hin) (decode_of_unlisted hnone)
  exact Machine.step_next_iff.2 ⟨hrun, .inr ⟨_, hfetch, rfl⟩⟩

end Sys2Proof

/-! ### Operands and the step (spec/40_dispatch.md): O11, O14, O17 -/

namespace Sys2Proof.Machine

/-! #### What a read operand answers, as the relations say it (R62) -/

variable {s t : State} {m : Mode} {k : Nat} {i : Instr} {w : Int}

/-- The value is there exactly when every check of the mode passes. -/
theorem readOperand_ok_iff {v : Int} : readOperand s m k = .ok v ↔ ReadsAs s m k v := by
  simp only [ReadsAs, ← inBounds_iff]
  cases m with
  | unknown d => simp [readOperand_unknown]
  | immediate =>
    rw [readOperand_immediate]
    cases inBounds s (s.pc + (k : Int)) <;> simp [eq_comm (a := v)]
  | position =>
    rw [readOperand_position]
    cases inBounds s (s.pc + (k : Int)) <;> cases inBounds s (operandCell s k) <;> simp [eq_comm (a := v)]

/-- The error branches of the checks, in the order of R65. -/
theorem readOperand_error_iff {f : FaultCause} :
    readOperand s m k = .error f ↔ ReadRaises s m k f := by
  simp only [ReadRaises, ← inBounds_iff]
  cases m with
  | unknown d => simp [readOperand_unknown, eq_comm (a := f)]
  | immediate =>
    rw [readOperand_immediate]
    cases inBounds s (s.pc + (k : Int)) <;> simp [eq_comm (a := f)]
  | position =>
    rw [readOperand_position]
    cases inBounds s (s.pc + (k : Int)) <;> cases inBounds s (operandCell s k) <;> simp [eq_comm (a := f)]

/-- Settles O11, by the mode and whether the operand cell and the index it names are in the image. -/
theorem readOperandIsTheNamedCell : Obligations.ReadOperandIsTheNamedCell :=
  fun _ _ _ => ⟨fun _ => readOperand_ok_iff, fun _ => readOperand_error_iff⟩

/-! #### Dispatch on the fetched word (R64) -/

theorem step_of_fetch_ok (hrun : s.status = .running) (hf : fetchInstr s = .ok i) :
    step s = exec i s := by
  simp [step, hrun, hf]

/-- A word that carries an opcode's number runs the instruction of that opcode. -/
theorem step_of_opc (hrun : s.status = .running) (hpc : InImage s s.pc) (hw : memRead s s.pc = w)
    (o : Opcode) (ho : opc w = (o.number : Int)) : step s = exec (o.instrOf w) s := by
  have hdec : decode (memRead s s.pc) = .ok (o.instrOf w) := by
    rw [hw]
    exact decode_ok_iff.2 ⟨o, ho, rfl⟩
  exact step_of_fetch_ok hrun (fetchInstr_decoded (inBounds_iff.2 hpc) hdec)

/-- A word that carries no opcode's number faults with the whole word (R52). -/
theorem step_of_unlisted (hrun : s.status = .running) (hpc : InImage s s.pc)
    (hw : memRead s s.pc = w) (hnone : ∀ o : Opcode, opc w ≠ (o.number : Int)) :
    step s = .next (raise s (.unknownOpcode w)) := by
  have hdec : decode (memRead s s.pc) = .error (.unknownOpcode w) := by
    rw [hw]
    exact decode_of_unlisted hnone
  exact step_next_iff.2 ⟨hrun, .inr ⟨_, fetchInstr_unknown (inBounds_iff.2 hpc) hdec, rfl⟩⟩

/-- Settles O14: each listed remainder is the number of one row of the opcode map, any other of none. -/
theorem dispatchByOpcode : Obligations.DispatchByOpcode := by
  intro s w hrun hpc hw
  have row := step_of_opc hrun hpc hw
  refine ⟨row .add, row .multiply, row .input, row .output, row .jumpIfTrue, row .jumpIfFalse,
    row .lessThan, row .equals, row .halt, fun hother => ?_⟩
  exact step_of_unlisted hrun hpc hw fun o ho => hother (exists_number_iff.1 ⟨o, ho⟩)

/-! #### How a step ends (R59) -/

/-- An instruction changes no cell but its store target, however it ends. -/
theorem exec_keeps_cell {a : Nat} (h : exec i s = .next t) (ha : storeTarget i s ≠ some (a : Int)) :
    t.mem.read a = s.mem.read a := by
  obtain ⟨f, rfl⟩ | ⟨d, v, hd, hb, rfl⟩ | ⟨_, _, v, _, _, rfl⟩ | ⟨_, _, _, _, rfl | ⟨p, _, rfl⟩⟩ |
    ⟨_, rfl⟩ := exec_next_cases h
  case inr.inl =>
    have hd0 : 0 ≤ d := (inBounds_iff.1 hb).1
    have hne : d ≠ (a : Int) := fun e => ha (e ▸ hd)
    exact memWrite_read_other s d v (by omega)
  all_goals rfl

/-- An instruction appends at most one word to the output log, however it ends. -/
theorem exec_out (h : exec i s = .next t) : t.out = s.out ∨ ∃ v, t.out = s.out ++ [v] := by
  obtain ⟨f, rfl⟩ | ⟨d, v, _, _, rfl⟩ | ⟨_, _, v, _, _, rfl⟩ | ⟨_, _, _, _, rfl | ⟨p, _, rfl⟩⟩ |
    ⟨_, rfl⟩ := exec_next_cases h
  case inr.inr.inl => exact .inr ⟨v, rfl⟩
  all_goals exact .inl rfl

/-- An instruction keeps the status, unless it is a Halt or ends in fault entry. -/
theorem exec_status (h : exec i s = .next t) :
    t.status = s.status ∨ (t.status = .halted ∧ ∃ high, i = .halt high) ∨ ∃ f, t = raise s f := by
  obtain ⟨f, rfl⟩ | ⟨d, v, _, _, rfl⟩ | ⟨_, _, v, _, _, rfl⟩ | ⟨_, _, _, _, rfl | ⟨p, _, rfl⟩⟩ |
    ⟨hi, rfl⟩ := exec_next_cases h
  case inl => exact .inr (.inr ⟨f, rfl⟩)
  case inr.inr.inr.inr => exact .inr (.inl ⟨rfl, hi⟩)
  all_goals exact .inl rfl

/-- Settles O17: a RUNNING block fetches an instruction, whose `exec` ends in one of the three ways, or
the fetch itself ends in fault entry. -/
theorem stepEndsInThreeWays : Obligations.StepEndsInThreeWays := by
  refine ⟨fun _ _ => status_of_step, fun s hrun => ?_⟩
  cases hf : fetchInstr s with
  | error f => exact ⟨raise s f, step_next_iff.2 ⟨hrun, .inr ⟨f, hf, rfl⟩⟩, .inr (.inr ⟨rfl, f, rfl⟩)⟩
  | ok i =>
    obtain ⟨t, ht⟩ := exec_next i s
    have hdec := (fetchInstr_ok_iff.1 hf).2
    refine ⟨t, (step_of_fetch_ok hrun hf).trans ht, ?_⟩
    obtain hkeep | ⟨hhalted, high, rfl⟩ | ⟨f, rfl⟩ := exec_status ht
    · exact .inl ⟨hkeep.trans hrun, i, hdec, fun _ => exec_keeps_cell ht, exec_out ht⟩
    · exact .inr (.inl ⟨hhalted, high, hdec⟩)
    · exact .inr (.inr ⟨rfl, f, rfl⟩)

end Sys2Proof.Machine

/-! ### Arithmetic (spec/41_arithmetic.md): O22, O23 -/

namespace Sys2Proof.Machine

/-! #### The wrapping of particular values (R7, R71) -/

/-- A word congruent to the exact value modulo `2^W` is its wrapping. -/
theorem wrapW_eq_of_dvd {n : Nat} {v u : Int} (hlo : minWord (n + 1) ≤ u) (hhi : u ≤ maxWord (n + 1))
    (hdvd : ((2 ^ (n + 1) : Nat) : Int) ∣ u - v) : wrapW (n + 1) v = u := by
  have hcongr : wrapW (n + 1) v = wrapW (n + 1) u := Int.bmod_eq_bmod_iff_bmod_sub_eq_zero.2 <|
    Int.bmod_eq_zero_of_dvd (dvd_sub_comm.1 hdvd)
  exact hcongr.trans (wrapW_of_fits (fitsW_iff.2 ⟨hlo, hhi⟩))

theorem minWord_le_maxWord (n : Nat) : minWord (n + 1) ≤ maxWord (n + 1) :=
  (wrapW_isWord n 0).1.trans (wrapW_isWord n 0).2

/-- The word range holds `2^W` integers. -/
theorem two_pow_eq_range (n : Nat) :
    ((2 ^ (n + 1) : Nat) : Int) = maxWord (n + 1) + 1 - minWord (n + 1) := by
  rw [two_pow_succ, minWord_maxWord, maxWord, Nat.add_sub_cancel]
  ring

theorem wrapW_maxWord_add_one (n : Nat) : wrapW (n + 1) (maxWord (n + 1) + 1) = minWord (n + 1) :=
  wrapW_eq_of_dvd le_rfl (minWord_le_maxWord n) ⟨-1, by rw [two_pow_eq_range]; ring⟩

theorem wrapW_minWord_sub_one (n : Nat) : wrapW (n + 1) (minWord (n + 1) + -1) = maxWord (n + 1) :=
  wrapW_eq_of_dvd (minWord_le_maxWord n) le_rfl ⟨1, by rw [two_pow_eq_range]; ring⟩

/-- The negation of MIN is MAX + 1. -/
theorem wrapW_neg_minWord (n : Nat) : wrapW (n + 1) (minWord (n + 1) * -1) = minWord (n + 1) := by
  have hneg : minWord (n + 1) * -1 = maxWord (n + 1) + 1 := by rw [minWord_maxWord]; ring
  rw [hneg, wrapW_maxWord_add_one]

theorem wrapW_half_pow_sq (n : Nat) :
    wrapW (2 * n) (((2 ^ n : Nat) : Int) * ((2 ^ n : Nat) : Int)) = 0 := by
  have hsq : ((2 ^ n : Nat) : Int) * ((2 ^ n : Nat) : Int) = ((2 ^ (2 * n) : Nat) : Int) := by
    rw [two_mul, pow_add, Nat.cast_mul]
  rw [hsq]
  exact Int.bmod_self

/-! #### What a destination and the ALU answer, as the relations say it (R63, R71) -/

variable {s : State} {m m1 m2 m3 : Mode} {k : Nat} {a b d r w exact : Int} {f : FaultCause}

/-- The index is there exactly when every check of the mode passes. -/
theorem destOperand_ok_iff : destOperand s m k = .ok d ↔ WritesTo s m k d := by
  have hcell : (d = operandCell s k ∧ InImage s d) ↔
      (d = operandCell s k ∧ InImage s (operandCell s k)) := and_congr_right (by rintro rfl; rfl)
  rw [WritesTo, hcell]
  simp only [← inBounds_iff]
  cases m with
  | unknown e => simp [destOperand_unknown]
  | immediate => simp [destOperand_immediate]
  | position =>
    rw [destOperand_position]
    cases inBounds s (s.pc + (k : Int)) <;> cases inBounds s (operandCell s k) <;> simp [eq_comm (a := d)]

/-- The error branches of the checks, in the order of R65. -/
theorem destOperand_error_iff : destOperand s m k = .error f ↔ WriteRaises s m k f := by
  simp only [WriteRaises, ← inBounds_iff]
  cases m with
  | unknown e => simp [destOperand_unknown, eq_comm (a := f)]
  | immediate => simp [destOperand_immediate, eq_comm (a := f)]
  | position =>
    rw [destOperand_position]
    cases inBounds s (s.pc + (k : Int)) <;> cases inBounds s (operandCell s k) <;> simp [eq_comm (a := f)]

theorem aluResult_of_fits (h : IsWord s exact) : aluResult s.cfg w exact = .ok exact := by
  simp [aluResult, fitsW_iff.2 h]

theorem aluResult_of_wrap (h : ¬ IsWord s exact) (ho : s.cfg.overflow = .wrap) :
    aluResult s.cfg w exact = .ok (wrapW s.cfg.wordBits exact) := by
  simp [aluResult, fitsW_iff, h, ho]

theorem aluResult_of_fault (h : ¬ IsWord s exact) (ho : s.cfg.overflow = .fault) :
    aluResult s.cfg w exact = .error (.arithmeticOverflow w) := by
  simp [aluResult, fitsW_iff, h, ho]

/-- A result that fits or is wrapped raises nothing. -/
theorem exists_aluResult_ok (h : IsWord s exact ∨ s.cfg.overflow = .wrap) :
    ∃ r, aluResult s.cfg w exact = .ok r := by
  by_cases hfits : IsWord s exact
  · exact ⟨_, aluResult_of_fits hfits⟩
  · exact ⟨_, aluResult_of_wrap hfits (h.resolve_left hfits)⟩

/-! #### How the three-operand shape ends (R65, R66, R74) -/

/-- A write to a cell of the image and the fall-through change that cell and pc alone (R74). -/
theorem storedAndAdvanced_memWrite (hd : 0 ≤ d) (n : Nat) :
    StoredAndAdvanced s (advance (memWrite s d r) n) d r n :=
  ⟨by simp, fun _ hne => memWrite_read_other s d r (by omega), rfl, rfl, rfl, rfl, rfl, rfl, rfl⟩

variable {result : Int → Int → Except FaultCause Int}

theorem complete_binaryOp_stores (ha : ReadsAs s m1 1 a) (hb : ReadsAs s m2 2 b)
    (hd : WritesTo s m3 3 d) (hr : result a b = .ok r) :
    ∃ t, complete s (binaryOp result m1 m2 m3 s) = .next t ∧ StoredAndAdvanced s t d r 4 := by
  have hrun : binaryOp result m1 m2 m3 s = .ok (advance (memWrite s d r) 4) :=
    binaryOp_ok_iff.2 ⟨a, readOperand_ok_iff.2 ha, b, readOperand_ok_iff.2 hb, r, hr, d,
      destOperand_ok_iff.2 hd, rfl⟩
  obtain ⟨-, -, -, hd0, -⟩ := hd
  exact ⟨_, by rw [hrun, complete_ok], storedAndAdvanced_memWrite hd0 4⟩

theorem complete_binaryOp_error (h : binaryOp result m1 m2 m3 s = .error f) :
    complete s (binaryOp result m1 m2 m3 s) = .next (raise s f) := by
  rw [h, complete_error]

theorem complete_binaryOp_raises_first (h : ReadRaises s m1 1 f) :
    complete s (binaryOp result m1 m2 m3 s) = .next (raise s f) :=
  complete_binaryOp_error (binaryOp_error_iff.2 (.inl (readOperand_error_iff.2 h)))

theorem complete_binaryOp_raises_second (ha : ReadsAs s m1 1 a) (h : ReadRaises s m2 2 f) :
    complete s (binaryOp result m1 m2 m3 s) = .next (raise s f) :=
  complete_binaryOp_error <| binaryOp_error_iff.2 <|
    .inr ⟨a, readOperand_ok_iff.2 ha, .inl (readOperand_error_iff.2 h)⟩

theorem complete_binaryOp_raises_result (ha : ReadsAs s m1 1 a) (hb : ReadsAs s m2 2 b)
    (h : result a b = .error f) :
    complete s (binaryOp result m1 m2 m3 s) = .next (raise s f) :=
  complete_binaryOp_error <| binaryOp_error_iff.2 <|
    .inr ⟨a, readOperand_ok_iff.2 ha, .inr ⟨b, readOperand_ok_iff.2 hb, .inl h⟩⟩

theorem complete_binaryOp_raises_dest (ha : ReadsAs s m1 1 a) (hb : ReadsAs s m2 2 b)
    (hr : result a b = .ok r) (h : WriteRaises s m3 3 f) :
    complete s (binaryOp result m1 m2 m3 s) = .next (raise s f) :=
  complete_binaryOp_error <| binaryOp_error_iff.2 <|
    .inr ⟨a, readOperand_ok_iff.2 ha, .inr ⟨b, readOperand_ok_iff.2 hb,
      .inr ⟨r, hr, destOperand_error_iff.2 h⟩⟩⟩

/-! #### Add and Multiply (R72, R73) -/

/-- What R72 and R73 say alike of an instruction that gives the ALU the exact result `op a b`: both
completions, and the exceptions in the order checked. -/
theorem aluInstruction_clauses {op : Int → Int → Int} {i : Instr}
    (hexec : exec i s =
      complete s (binaryOp (fun a b => aluResult s.cfg (encode i) (op a b)) m1 m2 m3 s)) :
    (∀ a b d, ReadsAs s m1 1 a → ReadsAs s m2 2 b → WritesTo s m3 3 d → IsWord s (op a b) →
      ∃ t, exec i s = .next t ∧ StoredAndAdvanced s t d (op a b) 4) ∧
    (∀ a b d, ReadsAs s m1 1 a → ReadsAs s m2 2 b → WritesTo s m3 3 d → ¬ IsWord s (op a b) →
      s.cfg.overflow = .wrap →
      ∃ t, exec i s = .next t ∧ StoredAndAdvanced s t d (wrapW s.cfg.wordBits (op a b)) 4) ∧
    (∀ f, ReadRaises s m1 1 f → exec i s = .next (raise s f)) ∧
    (∀ a f, ReadsAs s m1 1 a → ReadRaises s m2 2 f → exec i s = .next (raise s f)) ∧
    (∀ a b, ReadsAs s m1 1 a → ReadsAs s m2 2 b → ¬ IsWord s (op a b) → s.cfg.overflow = .fault →
      exec i s = .next (raise s (.arithmeticOverflow (encode i)))) ∧
    (∀ a b f, ReadsAs s m1 1 a → ReadsAs s m2 2 b → (IsWord s (op a b) ∨ s.cfg.overflow = .wrap) →
      WriteRaises s m3 3 f → exec i s = .next (raise s f)) := by
  rw [hexec]
  refine ⟨?fits, ?wraps, ?operand1, ?operand2, ?overflow, ?dest⟩
  case fits => exact fun a b d ha hb hd h => complete_binaryOp_stores ha hb hd (aluResult_of_fits h)
  case wraps =>
    exact fun a b d ha hb hd h ho => complete_binaryOp_stores ha hb hd (aluResult_of_wrap h ho)
  case operand1 => exact fun f => complete_binaryOp_raises_first
  case operand2 => exact fun a f => complete_binaryOp_raises_second
  case overflow =>
    exact fun a b ha hb h ho => complete_binaryOp_raises_result ha hb (aluResult_of_fault h ho)
  case dest =>
    intro a b f ha hb hok hf
    obtain ⟨r, hr⟩ := exists_aluResult_ok hok
    exact complete_binaryOp_raises_dest ha hb hr hf

/-- Settles O22: the ALU's clauses with the sum, and the wrapping at both ends of the range. -/
theorem addInstruction : Obligations.AddInstruction :=
  ⟨fun _ _ hopc => decode_ok_iff.2 ⟨.add, hopc, rfl⟩,
    fun n => ⟨wrapW_maxWord_add_one n, wrapW_minWord_sub_one n⟩,
    fun _ _ _ _ _ => aluInstruction_clauses (op := fun a b => a + b) rfl⟩

/-- Settles O23: the ALU's clauses with the product, MIN * -1, and the square of `2^(W/2)`. -/
theorem multiplyInstruction : Obligations.MultiplyInstruction :=
  ⟨fun _ _ hopc => decode_ok_iff.2 ⟨.multiply, hopc, rfl⟩,
    fun n => ⟨wrapW_neg_minWord n, wrapW_half_pow_sq n⟩,
    fun _ _ _ _ _ => aluInstruction_clauses (op := fun a b => a * b) rfl⟩

end Sys2Proof.Machine

/-! ### Input and Output (spec/42_io.md): O25, O26 -/

namespace Sys2Proof.Machine

variable {s t : State} {i : Instr} {m1 : Mode} {d v : Int} {f : FaultCause}

/-! #### The input latch (R75) -/

/-- START is accepted in READY for a word, and sets the latch and the status alone (R107). -/
theorem hostStart_accepted (hready : s.status = .ready) (hv : IsWord s v) :
    hostStart v s = ({ s with inlat := v, status := .running }, .done) := by
  simp [hostStart, hready, fitsW_iff.2 hv]

/-- No instruction changes the latch, however it ends. -/
theorem exec_inlat (h : exec i s = .next t) : t.inlat = s.inlat := by
  obtain ⟨f, rfl⟩ | ⟨d, v, _, _, rfl⟩ | ⟨_, _, v, _, _, rfl⟩ | ⟨_, _, _, _, rfl | ⟨p, _, rfl⟩⟩ |
    ⟨_, rfl⟩ := exec_next_cases h
  all_goals rfl

theorem step_inlat (h : step s = .next t) : t.inlat = s.inlat := by
  obtain ⟨-, ⟨i, -, hexec⟩ | ⟨f, -, rfl⟩⟩ := step_next_iff.1 h
  · exact exec_inlat hexec
  · exact raise_inlat s f

theorem run_inlat {n : Nat} (h : Host.Core.run Sys2Proof.core n s = .next t) : t.inlat = s.inlat :=
  run_keeps (P := fun u => u.inlat = s.inlat) (fun _ _ hu hstep => (step_inlat hstep).trans hu) rfl h

/-- Input completes with the latch in its destination and the fall-through (R76). -/
theorem exec_input_of_writesTo (high : Nat) (h : WritesTo s m1 1 d) :
    exec (.input m1 high) s = .next (advance (memWrite s d s.inlat) 2) := by
  have hrun : inputOp m1 s = .ok (advance (memWrite s d s.inlat) 2) :=
    inputOp_ok_iff.2 ⟨d, destOperand_ok_iff.2 h, rfl⟩
  calc exec (.input m1 high) s = complete s (inputOp m1 s) := rfl
    _ = .next (advance (memWrite s d s.inlat) 2) := by rw [hrun, complete_ok]

/-- Settles O25: every step keeps the latch, so an Input after a run stores the latch the run began
with. -/
theorem inputChannelIsTheLatch : Obligations.InputChannelIsTheLatch := by
  refine ⟨?start, fun _ _ _ => run_inlat, ?input, fun s m1 high => exec_next (.input m1 high) s⟩
  case start =>
    intro s v hready hv
    rw [hostStart_accepted hready hv]
  case input =>
    intro n s u m1 high d hrun hd
    refine ⟨_, exec_input_of_writesTo high hd, ?_⟩
    rw [memRead_advance, memRead_memWrite_self, run_inlat hrun]

/-! #### Output (R77) -/

/-- Output completes with its operand at the end of the log and the fall-through. -/
theorem exec_output_of_readsAs (high : Nat) (h : ReadsAs s m1 1 v) :
    exec (.output m1 high) s = .next (advance (emit s v) 2) := by
  have hrun : outputOp m1 s = .ok (advance (emit s v) 2) :=
    outputOp_ok_iff.2 ⟨v, readOperand_ok_iff.2 h, rfl⟩
  calc exec (.output m1 high) s = complete s (outputOp m1 s) := rfl
    _ = .next (advance (emit s v) 2) := by rw [hrun, complete_ok]

/-- Output raises what its operand raises, and fault entry is then its only effect (R66). -/
theorem exec_output_of_readRaises (high : Nat) (h : ReadRaises s m1 1 f) :
    exec (.output m1 high) s = .next (raise s f) := by
  have hrun : outputOp m1 s = .error f := outputOp_error_iff.2 (readOperand_error_iff.2 h)
  calc exec (.output m1 high) s = complete s (outputOp m1 s) := rfl
    _ = .next (raise s f) := by rw [hrun, complete_error]

/-- Settles O26: 4 is Output's number, and its operand is read or raises. -/
theorem outputInstruction : Obligations.OutputInstruction :=
  ⟨fun _ _ hopc => decode_ok_iff.2 ⟨.output, hopc, rfl⟩,
    fun _ _ high => ⟨fun _ => exec_output_of_readsAs high, fun _ => exec_output_of_readRaises high⟩⟩

end Sys2Proof.Machine

/-! ### Jumps (spec/43_jumps.md): O28 -/

namespace Sys2Proof.Machine

variable {taken : Int → Bool} {s : State} {m1 m2 : Mode} {c p : Int} {f : FaultCause}

/-! #### How the conditional jump ends, whichever conditions take it (R65, R66) -/

/-- A taken jump writes pc alone, and the target is not checked (R80). -/
theorem complete_condJump_taken (hc : ReadsAs s m1 1 c) (ht : taken c = true)
    (hp : ReadsAs s m2 2 p) : complete s (condJump taken m1 m2 s) = .next (setPc s p) := by
  have hrun : condJump taken m1 m2 s = .ok (setPc s p) :=
    condJump_ok_iff.2 ⟨c, readOperand_ok_iff.2 hc, .inl ⟨ht, p, readOperand_ok_iff.2 hp, rfl⟩⟩
  rw [hrun, complete_ok]

/-- A jump that is not taken falls through, with no premise on operand 2. -/
theorem complete_condJump_fallsThrough (hc : ReadsAs s m1 1 c) (ht : taken c = false) :
    complete s (condJump taken m1 m2 s) = .next (advance s 3) := by
  have hrun : condJump taken m1 m2 s = .ok (advance s 3) :=
    condJump_ok_iff.2 ⟨c, readOperand_ok_iff.2 hc, .inr ⟨ht, rfl⟩⟩
  rw [hrun, complete_ok]

theorem complete_condJump_raises_condition (h : ReadRaises s m1 1 f) :
    complete s (condJump taken m1 m2 s) = .next (raise s f) := by
  have hrun : condJump taken m1 m2 s = .error f :=
    condJump_error_iff.2 (.inl (readOperand_error_iff.2 h))
  rw [hrun, complete_error]

theorem complete_condJump_raises_target (hc : ReadsAs s m1 1 c) (ht : taken c = true)
    (h : ReadRaises s m2 2 f) : complete s (condJump taken m1 m2 s) = .next (raise s f) := by
  have hrun : condJump taken m1 m2 s = .error f :=
    condJump_error_iff.2 (.inr ⟨c, readOperand_ok_iff.2 hc, ht, readOperand_error_iff.2 h⟩)
  rw [hrun, complete_error]

/-! #### JumpIfFalse (R79) -/

theorem exec_jumpIfFalse (m1 m2 : Mode) (high : Nat) (s : State) :
    exec (.jumpIfFalse m1 m2 high) s =
      complete s (condJump (fun c => decide (c = 0)) m1 m2 s) := rfl

/-- Settles O28: 6 is JumpIfFalse's number, and of the conditional jump's four ends the condition 0
selects the two that evaluate operand 2. -/
theorem jumpIfFalseInstruction : Obligations.JumpIfFalseInstruction := by
  refine ⟨fun _ _ hopc => decode_ok_iff.2 ⟨.jumpIfFalse, hopc, rfl⟩, fun s m1 m2 high => ?_⟩
  rw [exec_jumpIfFalse]
  refine ⟨?taken, ?fallsThrough, ?operand1, ?operand2⟩
  case taken => exact fun p hc hp => complete_condJump_taken hc (decide_eq_true rfl) hp
  case fallsThrough =>
    exact fun c hc hne => complete_condJump_fallsThrough hc (decide_eq_false hne)
  case operand1 => exact fun f => complete_condJump_raises_condition
  case operand2 => exact fun f hc => complete_condJump_raises_target hc (decide_eq_true rfl)

end Sys2Proof.Machine

/-! ### LessThan and Equals (spec/44_compare.md): O30, O31, O32 -/

namespace Sys2Proof.Machine

variable {rel : Int → Int → Prop} [DecidableRel rel] {i : Instr} {s t : State} {m1 m2 m3 : Mode}

/-- What R81 and R82 say alike of an instruction whose result is the word 1 where `rel` holds of its
operands and 0 where it does not: no result raises, so the completion and three exceptions are left. -/
theorem compareInstruction_clauses
    (hexec : exec i s =
      complete s (binaryOp (fun a b => .ok (if rel a b then 1 else 0)) m1 m2 m3 s)) :
    (∀ a b d, ReadsAs s m1 1 a → ReadsAs s m2 2 b → WritesTo s m3 3 d →
      ∃ t, exec i s = .next t ∧ StoredAndAdvanced s t d (if rel a b then 1 else 0) 4) ∧
    (∀ f, ReadRaises s m1 1 f → exec i s = .next (raise s f)) ∧
    (∀ a f, ReadsAs s m1 1 a → ReadRaises s m2 2 f → exec i s = .next (raise s f)) ∧
    (∀ a b f, ReadsAs s m1 1 a → ReadsAs s m2 2 b → WriteRaises s m3 3 f →
      exec i s = .next (raise s f)) := by
  rw [hexec]
  refine ⟨?stores, ?operand1, ?operand2, ?dest⟩
  case stores => exact fun a b d ha hb hd => complete_binaryOp_stores ha hb hd rfl
  case operand1 => exact fun f => complete_binaryOp_raises_first
  case operand2 => exact fun a f => complete_binaryOp_raises_second
  case dest => exact fun a b f ha hb => complete_binaryOp_raises_dest ha hb rfl

/-- Settles O30: 7 is LessThan's number, and its relation is the signed order. -/
theorem lessThanInstruction : Obligations.LessThanInstruction :=
  ⟨fun _ _ hopc => decode_ok_iff.2 ⟨.lessThan, hopc, rfl⟩,
    fun _ _ _ _ _ => compareInstruction_clauses (rel := fun a b => a < b) rfl⟩

/-- Settles O31: 8 is Equals' number, and its relation is equality of whole words. -/
theorem equalsInstruction : Obligations.EqualsInstruction :=
  ⟨fun _ _ hopc => decode_ok_iff.2 ⟨.equals, hopc, rfl⟩,
    fun _ _ _ _ _ => compareInstruction_clauses (rel := fun a b => a = b) rfl⟩

/-- Where the three-operand shape did not fault, the cell its destination names holds the result of the
operands it read. -/
theorem complete_binaryOp_stored {result : Int → Int → Except FaultCause Int}
    (h : complete s (binaryOp result m1 m2 m3 s) = .next t) (hnofault : ∀ f, t ≠ raise s f) :
    ∃ d a b, destOperand s m3 3 = .ok d ∧ ReadsAs s m1 1 a ∧ ReadsAs s m2 2 b ∧
      result a b = .ok (memRead t d) := by
  obtain hrun | ⟨f, -, hf⟩ := complete_cases h
  · obtain ⟨a, ha, b, hb, r, hr, d, hd, rfl⟩ := binaryOp_ok_iff.1 hrun
    refine ⟨d, a, b, hd, readOperand_ok_iff.1 ha, readOperand_ok_iff.1 hb, ?_⟩
    rw [memRead_advance, memRead_memWrite_self, hr]
  · exact absurd hf (hnofault f)

/-- A comparison that did not fault stored exactly 0 or 1, and 1 exactly where its relation holds. -/
theorem complete_compare_stored
    (h : complete s (binaryOp (fun a b => .ok (if rel a b then 1 else 0)) m1 m2 m3 s) = .next t)
    (hnofault : ∀ f, t ≠ raise s f) :
    ∃ d a b, (destOperand s m3 3).toOption = some d ∧ ReadsAs s m1 1 a ∧ ReadsAs s m2 2 b ∧
      (memRead t d = 0 ∨ memRead t d = 1) ∧ (memRead t d = 1 ↔ rel a b) := by
  obtain ⟨d, a, b, hd, ha, hb, hresult⟩ := complete_binaryOp_stored h hnofault
  have hword : (if rel a b then 1 else 0) = memRead t d := Except.ok.inj hresult
  refine ⟨d, a, b, by rw [hd]; rfl, ha, hb, ?_⟩
  rw [← hword]
  by_cases hrel : rel a b <;> simp [hrel]

/-- Settles O32: the stored word is the comparison's, and no instruction changes a cell but its store
target. -/
theorem compareWritesZeroOrOne : Obligations.CompareWritesZeroOrOne := by
  rintro m1 m2 m3 high i s t (rfl | rfl) hexec hnofault
  case inl =>
    obtain ⟨d, a, b, hd, ha, hb, hbit, hiff⟩ :=
      complete_compare_stored (rel := fun a b => a < b) hexec hnofault
    exact ⟨d, a, b, hd, ha, hb, hbit, fun _ => hiff, nofun, fun _ => exec_keeps_cell hexec⟩
  case inr =>
    obtain ⟨d, a, b, hd, ha, hb, hbit, hiff⟩ :=
      complete_compare_stored (rel := fun a b => a = b) hexec hnofault
    exact ⟨d, a, b, hd, ha, hb, hbit, nofun, fun _ => hiff, fun _ => exec_keeps_cell hexec⟩

end Sys2Proof.Machine

/-! ### Halt (spec/45_halt.md): O33, O34 -/

namespace Sys2Proof

variable {w : Int}

/-- No negative word is an instruction (R53). -/
theorem nonneg_of_decode_ok {i : Instr} (h : decode w = .ok i) : 0 ≤ w := by
  obtain ⟨o, ho, -⟩ := decode_ok_iff.1 h
  exact nonneg_of_opc ho

/-- A refused word carries no opcode's number (R52). -/
theorem opc_ne_number_of_decode_error {e : DecodeError} (h : decode w = .error e) (o : Opcode) :
    opc w ≠ (o.number : Int) := by
  intro ho
  obtain ⟨i, hi⟩ := exists_decode_ok_iff.2 ⟨o, ho⟩
  rw [h] at hi
  cases hi

end Sys2Proof

namespace Sys2Proof.Machine

variable {s t : State} {i : Instr}

theorem exec_halt (high : Nat) (s : State) : exec (.halt high) s = .next (setHalted s) := rfl

/-- Settles O33: 99 is Halt's number, and no number selects an instruction in a negative word. -/
theorem haltInstruction : Obligations.HaltInstruction := by
  refine ⟨?decodes, ?negative, ?effect⟩
  case decodes => exact fun w _ hopc => decode_ok_iff.2 ⟨.halt, hopc, rfl⟩
  case negative =>
    intro w high hneg hdec
    exact absurd (nonneg_of_decode_ok hdec) (Int.not_le.2 hneg)
  case effect => exact fun s high => exec_halt high s

/-- From RUNNING, only Halt leads to HALTED: the other ends keep the status or fault. -/
theorem exec_halted (hrun : s.status = .running) (h : exec i s = .next t)
    (ht : t.status = .halted) : (∃ high, i = .halt high) ∧ t = setHalted s := by
  obtain hkeep | ⟨-, high, rfl⟩ | ⟨f, rfl⟩ := exec_status h
  · rw [hkeep, hrun] at ht
    cases ht
  · rw [exec_halt] at h
    cases h
    exact ⟨⟨high, rfl⟩, rfl⟩
  · rw [raise_status] at ht
    cases ht

/-- A step that ends HALTED ran a Halt that it fetched in the image. -/
theorem step_halted (h : step s = .next t) (ht : t.status = .halted) :
    InImage s s.pc ∧ (∃ high, decode (memRead s s.pc) = .ok (.halt high)) ∧ t = setHalted s := by
  obtain ⟨hrun, ⟨i, hfetch, hexec⟩ | ⟨f, -, rfl⟩⟩ := step_next_iff.1 h
  · obtain ⟨hpc, hdec⟩ := fetchInstr_ok_iff.1 hfetch
    obtain ⟨⟨high, rfl⟩, rfl⟩ := exec_halted hrun hexec ht
    exact ⟨inBounds_iff.1 hpc, ⟨high, hdec⟩, rfl⟩
  · rw [raise_status] at ht
    cases ht

/-- A RUNNING block whose pc is outside the image faults at the fetch (R60). -/
theorem step_of_outside (hrun : s.status = .running) (hpc : ¬ InImage s s.pc) :
    step s = .next (raise s (.outOfBounds s.pc 0)) := by
  have hout : inBounds s s.pc = false := Bool.eq_false_iff.2 (mt inBounds_iff.1 hpc)
  exact step_next_iff.2 ⟨hrun, .inr ⟨_, fetchInstr_outside hout, rfl⟩⟩

theorem hostResult_of_halted (h : s.status = .halted) :
    hostResult s = (s, .result s.out (memoryImage s)) := if_pos h

/-- Settles O34: a step needs RUNNING and ends HALTED only by a fetched Halt; outside the image and at a
refused word the fetch faults instead. -/
theorem onlyHaltEndsSuccessfully : Obligations.OnlyHaltEndsSuccessfully := by
  refine ⟨?halted, fun _ _ => step_halted, ?pastImage, ?illegal⟩
  case halted =>
    intro s hs
    refine ⟨fun t ht => ?_, hostResult_of_halted hs⟩
    have hrun := status_of_step ht
    rw [hs] at hrun
    cases hrun
  case pastImage =>
    exact fun s hrun hlen => step_of_outside hrun fun ⟨_, hlt⟩ => Int.not_lt.2 hlen hlt
  case illegal =>
    exact fun s w hrun hpc hdec =>
      step_of_unlisted hrun hpc rfl (opc_ne_number_of_decode_error hdec)

end Sys2Proof.Machine

/-! ### Exceptions (spec/60_exceptions.md): O39, O40 -/

namespace Sys2Proof.Machine

variable {s t : State} {i : Instr} {m m1 m2 m3 : Mode} {k : Nat} {ks : List Nat} {f g : FaultCause}
  {result : Int → Int → Except FaultCause Int} {taken : Int → Bool}

/-! #### Fault entry tells the cause (R87, R90) -/

/-- The cause that a record's code selects, with its arguments from the fields that hold them. -/
def FaultRecord.cause (r : FaultRecord) : FaultCause :=
  if r.fcause = 1 then .unknownOpcode r.fvalue
  else if r.fcause = 2 then .unknownAddressingMode r.fvalue r.foperand.toNat
  else if r.fcause = 3 then .outOfBounds r.findex r.foperand.toNat
  else if r.fcause = 4 then .immediateDestination r.foperand.toNat
  else .arithmeticOverflow r.fvalue

/-- A cause can be read back from its record, so fault entry loses none of its arguments. -/
@[simp] theorem FaultRecord.cause_record (f : FaultCause) (pc : Int) : (f.record pc).cause = f := by
  cases f <;> rfl

theorem raise_inj : raise s f = raise s g ↔ f = g :=
  ⟨fun h => by simpa using congrArg (fun u => u.fault.cause) h, fun h => h ▸ rfl⟩

/-- An instruction whose own updates keep a status other than FAULTED ends in the entry of `f` only by
raising `f`. -/
theorem error_of_complete_raise {x : Except FaultCause State} (hs : s.status ≠ .faulted)
    (hkeep : ∀ t, x = .ok t → t.status = s.status) (h : complete s x = .next (raise s f)) :
    x = .error f := by
  obtain hok | ⟨g, hg, hfg⟩ := complete_cases h
  · exact absurd (hkeep _ hok).symm hs
  · rw [hg, raise_inj.1 hfg]

/-! #### The faults of the operands (R62, R63) -/

theorem operandFault_of_readOperand (hk : k ∈ ks) (h : readOperand s m k = .error f) :
    OperandFault ks f := by
  obtain ⟨d, -, hf⟩ | ⟨-, -, hf⟩ | ⟨-, -, -, hf⟩ := readOperand_error_iff.1 h
  · exact ⟨k, hk, .inl ⟨_, hf⟩⟩
  · exact ⟨k, hk, .inr ⟨_, hf⟩⟩
  · exact ⟨k, hk, .inr ⟨_, hf⟩⟩

theorem operandFault_of_destOperand (hk : k ∈ ks) (h : destOperand s m k = .error f) :
    OperandFault ks f ∨ f = .immediateDestination k := by
  obtain ⟨d, -, hf⟩ | ⟨-, hf⟩ | ⟨-, -, hf⟩ | ⟨-, -, -, hf⟩ := destOperand_error_iff.1 h
  · exact .inl ⟨k, hk, .inl ⟨_, hf⟩⟩
  · exact .inr hf
  · exact .inl ⟨k, hk, .inr ⟨_, hf⟩⟩
  · exact .inl ⟨k, hk, .inr ⟨_, hf⟩⟩

/-- The ALU raises ArithmeticOverflow alone (R71). -/
theorem aluResult_error {c : Config} {w exact : Int} (h : aluResult c w exact = .error f) :
    f = .arithmeticOverflow w := by
  obtain ⟨-, hr⟩ | ⟨-, -, hr⟩ | ⟨-, -, hr⟩ := aluResult_cases c w exact <;> rw [hr] at h <;> cases h
  rfl

/-! #### The faults of the shapes (R65, R88) -/

/-- The three-operand shape raises an operand's fault, its destination's, or its result's. -/
theorem complete_binaryOp_mayRaise (hs : s.status ≠ .faulted)
    (h : complete s (binaryOp result m1 m2 m3 s) = .next (raise s f)) :
    (OperandFault [1, 2, 3] f ∨ f = .immediateDestination 3) ∨ ∃ a b, result a b = .error f := by
  have hkeep : ∀ t, binaryOp result m1 m2 m3 s = .ok t → t.status = s.status := by
    intro t ht
    obtain ⟨_, -, _, -, _, -, _, -, rfl⟩ := binaryOp_ok_iff.1 ht
    rfl
  obtain h1 | ⟨a, -, h2 | ⟨b, -, hr | ⟨_, -, h3⟩⟩⟩ :=
    binaryOp_error_iff.1 (error_of_complete_raise hs hkeep h)
  · exact .inl (.inl (operandFault_of_readOperand (by decide) h1))
  · exact .inl (.inl (operandFault_of_readOperand (by decide) h2))
  · exact .inr ⟨a, b, hr⟩
  · exact .inl (operandFault_of_destOperand (by decide) h3)

/-- With the ALU's result, the result's fault is ArithmeticOverflow. -/
theorem complete_alu_mayRaise {c : Config} {w : Int} {op : Int → Int → Int} (hs : s.status ≠ .faulted)
    (h : complete s (binaryOp (fun a b => aluResult c w (op a b)) m1 m2 m3 s) = .next (raise s f)) :
    OperandFault [1, 2, 3] f ∨ f = .immediateDestination 3 ∨ ∃ w, f = .arithmeticOverflow w := by
  obtain (hop | hdest) | ⟨a, b, hr⟩ := complete_binaryOp_mayRaise hs h
  · exact .inl hop
  · exact .inr (.inl hdest)
  · exact .inr (.inr ⟨w, aluResult_error hr⟩)

/-- With a comparison's result, the result raises nothing. -/
theorem complete_compare_mayRaise {word : Int → Int → Int} (hs : s.status ≠ .faulted)
    (h : complete s (binaryOp (fun a b => .ok (word a b)) m1 m2 m3 s) = .next (raise s f)) :
    OperandFault [1, 2, 3] f ∨ f = .immediateDestination 3 :=
  (complete_binaryOp_mayRaise hs h).resolve_right nofun

/-- A conditional jump raises operand 1's fault, or operand 2's where its condition takes it. -/
theorem complete_condJump_mayRaise (hs : s.status ≠ .faulted)
    (h : complete s (condJump taken m1 m2 s) = .next (raise s f)) :
    OperandFault [1] f ∨ (OperandFault [2] f ∧ ∃ c, ReadsAs s m1 1 c ∧ taken c = true) := by
  have hkeep : ∀ t, condJump taken m1 m2 s = .ok t → t.status = s.status := by
    intro t ht
    obtain ⟨_, -, ⟨-, _, -, rfl⟩ | ⟨-, rfl⟩⟩ := condJump_ok_iff.1 ht <;> rfl
  obtain h1 | ⟨c, hc, ht, h2⟩ := condJump_error_iff.1 (error_of_complete_raise hs hkeep h)
  · exact .inl (operandFault_of_readOperand (by decide) h1)
  · exact .inr ⟨operandFault_of_readOperand (by decide) h2, c, readOperand_ok_iff.1 hc, ht⟩

theorem complete_inputOp_mayRaise (hs : s.status ≠ .faulted)
    (h : complete s (inputOp m1 s) = .next (raise s f)) :
    OperandFault [1] f ∨ f = .immediateDestination 1 := by
  have hkeep : ∀ t, inputOp m1 s = .ok t → t.status = s.status := by
    intro t ht
    obtain ⟨_, -, rfl⟩ := inputOp_ok_iff.1 ht
    rfl
  exact operandFault_of_destOperand (by decide)
    (inputOp_error_iff.1 (error_of_complete_raise hs hkeep h))

theorem complete_outputOp_mayRaise (hs : s.status ≠ .faulted)
    (h : complete s (outputOp m1 s) = .next (raise s f)) : OperandFault [1] f := by
  have hkeep : ∀ t, outputOp m1 s = .ok t → t.status = s.status := by
    intro t ht
    obtain ⟨_, -, rfl⟩ := outputOp_ok_iff.1 ht
    rfl
  exact operandFault_of_readOperand (by decide)
    (outputOp_error_iff.1 (error_of_complete_raise hs hkeep h))

/-! #### The table of R88 -/

/-- Each instruction raises what its shape can raise. -/
theorem mayRaise_of_exec (hs : s.status ≠ .faulted) (h : exec i s = .next (raise s f)) :
    MayRaise i s f := by
  cases i with
  | add m1 m2 m3 high => exact complete_alu_mayRaise (op := fun a b => a + b) hs h
  | multiply m1 m2 m3 high => exact complete_alu_mayRaise (op := fun a b => a * b) hs h
  | input m1 high => exact complete_inputOp_mayRaise hs h
  | output m1 high => exact complete_outputOp_mayRaise hs h
  | jumpIfTrue m1 m2 high =>
    obtain h1 | ⟨h2, c, hc, htaken⟩ := complete_condJump_mayRaise hs h
    · exact .inl h1
    · exact .inr ⟨h2, c, hc, of_decide_eq_true htaken⟩
  | jumpIfFalse m1 m2 high =>
    obtain h1 | ⟨h2, c, hc, htaken⟩ := complete_condJump_mayRaise hs h
    · exact .inl h1
    · exact .inr ⟨h2, of_decide_eq_true htaken ▸ hc⟩
  | lessThan m1 m2 m3 high => exact complete_compare_mayRaise (word := lessThanResult) hs h
  | equals m1 m2 m3 high => exact complete_compare_mayRaise (word := equalsResult) hs h
  | halt high =>
    rw [exec_halt] at h
    cases h

/-- Settles O39: each instruction's faults by its shape, and a refused word's by the fetch. -/
theorem faultsOfEachInstruction : Obligations.FaultsOfEachInstruction := by
  refine ⟨fun i s f => mayRaise_of_exec, fun s w hrun hpc hdec => ?_⟩
  exact step_next_iff.2 ⟨hrun, .inr ⟨_, fetchInstr_unknown (inBounds_iff.2 hpc) hdec, rfl⟩⟩

/-! #### Fault entry is all a faulting step does (R90) -/

/-- A step that ends FAULTED is a fault entry: a completed instruction stays RUNNING or is a Halt. -/
theorem step_faulted (h : step s = .next t) (ht : t.status = .faulted) : ∃ f, t = raise s f := by
  obtain ⟨hrun, ⟨i, -, hexec⟩ | ⟨f, -, rfl⟩⟩ := step_next_iff.1 h
  · obtain hkeep | ⟨hhalted, -⟩ | hraise := exec_status hexec
    · rw [hkeep, hrun] at ht
      cases ht
    · rw [hhalted] at ht
      cases ht
    · exact hraise
  · exact ⟨f, rfl⟩

/-- Settles O40: the state is the fault entry's, and its fields are those of R87's record. -/
theorem faultsArePrecise : Obligations.FaultsArePrecise := by
  intro s t h ht
  obtain ⟨f, rfl⟩ := step_faulted h ht
  exact ⟨f, rfl, rfl, rfl, rfl, rfl, rfl, rfl, rfl, rfl, rfl, rfl⟩

end Sys2Proof.Machine

/-! ### Encoding (spec/30_encoding.md), the round trips: O1, O2, O6, O7, O8, O10 -/

namespace Sys2Proof

variable {w : Int} {i : Instr} {ms : List Mode} {high : Nat}

/-! #### The digits of an encoded word -/

theorem encodeDigits_cons (m : Mode) (ms : List Mode) (high : Nat) :
    encodeDigits (m :: ms) high = m.digit + 10 * encodeDigits ms high := rfl

/-- Decimal digit `j` of the encoded digits is that of mode `j` (R45). -/
theorem encodeDigits_digit (hms : ∀ m ∈ ms, m.wellFormed = true) {j : Nat} (hj : j < ms.length) :
    encodeDigits ms high / 10 ^ j % 10 = ms[j].digit := by
  induction ms generalizing j with
  | nil => exact absurd hj (Nat.not_lt_zero j)
  | cons m ms ih =>
    have hdigit := Mode.digit_lt (hms m List.mem_cons_self)
    rw [encodeDigits_cons]
    cases j with
    | zero => simp only [pow_zero, Nat.div_one, List.getElem_cons_zero]; omega
    | succ j =>
      have hrest : (m.digit + 10 * encodeDigits ms high) / 10 = encodeDigits ms high := by omega
      rw [pow_succ', ← Nat.div_div_eq_div_mul, hrest, List.getElem_cons_succ]
      exact ih (fun m hm => hms m (List.mem_cons_of_mem _ hm)) _

/-- Above the modes stand the unread digits (R54). -/
theorem encodeDigits_high (hms : ∀ m ∈ ms, m.wellFormed = true) :
    encodeDigits ms high / 10 ^ ms.length = high := by
  induction ms with
  | nil => simp [encodeDigits]
  | cons m ms ih =>
    have hdigit := Mode.digit_lt (hms m List.mem_cons_self)
    have hrest : (m.digit + 10 * encodeDigits ms high) / 10 = encodeDigits ms high := by omega
    rw [encodeDigits_cons, List.length_cons, pow_succ', ← Nat.div_div_eq_div_mul, hrest]
    exact ih fun m hm => hms m (List.mem_cons_of_mem _ hm)

theorem encode_nonneg (i : Instr) : 0 ≤ encode i := Int.natCast_nonneg _

theorem encode_div_hundred (i : Instr) :
    encode i / 100 = ((encodeDigits i.modes i.high : Nat) : Int) := by
  have hnum := i.opcode.number_lt
  rw [encode]
  omega

theorem modes_wellFormed (h : i.wellFormed = true) : ∀ m ∈ i.modes, m.wellFormed = true :=
  List.all_eq_true.1 h

/-- The encoded word selects each operand's mode (R47, R48). -/
theorem modeOf_encode (h : i.wellFormed = true) {j : Nat} (hj : j < i.modes.length) :
    modeOf (encode i) (j + 1) = i.modes[j] := by
  have hms := modes_wellFormed h
  have hdigit : modeDigit (encode i) (j + 1) = (i.modes[j].digit : Int) := by
    rw [modeDigit_of_nonneg (encode_nonneg i), ← Int.ediv_ediv_of_nonneg (by decide),
      encode_div_hundred, Nat.add_sub_cancel, ← encodeDigits_digit (high := i.high) hms hj]
    push_cast
    rfl
  rw [modeOf, hdigit, Mode.ofDigit_digit (hms _ (List.getElem_mem hj))]

/-- On a non-negative word the digits from `n + 2` on are those of the word over 100. -/
theorem digitsFrom_of_nonneg (hw : 0 ≤ w) (n : Nat) :
    ((digitsFrom w (n + 2) : Nat) : Int) = w / 100 / ((10 ^ n : Nat) : Int) := by
  have hpow : ((10 ^ (n + 2) : Nat) : Int) = 100 * ((10 ^ n : Nat) : Int) := by
    push_cast
    ring
  have hq : 0 ≤ w / ((10 ^ (n + 2) : Nat) : Int) := Int.ediv_nonneg hw (Int.natCast_nonneg _)
  rw [digitsFrom, Machine.divT_of_nonneg hw, Int.toNat_of_nonneg hq, hpow,
    Int.ediv_ediv_of_nonneg (by decide)]

theorem digitsFrom_encode (h : i.wellFormed = true) :
    digitsFrom (encode i) (i.modes.length + 2) = i.high := by
  have hcast := digitsFrom_of_nonneg (encode_nonneg i) i.modes.length
  rw [encode_div_hundred, ← Int.natCast_ediv, encodeDigits_high (modes_wellFormed h)] at hcast
  exact Int.ofNat.inj hcast

/-- The instruction of an encoded word's opcode is the one encoded. -/
theorem instrOf_encode (h : i.wellFormed = true) : i.opcode.instrOf (encode i) = i := by
  have hmode := fun j => modeOf_encode h (j := j)
  have hhigh := digitsFrom_encode h
  cases i with
  | add | multiply | lessThan | equals =>
    exact congr (congr (congr (congrArg _ (hmode 0 (by simp [Instr.modes])))
      (hmode 1 (by simp [Instr.modes]))) (hmode 2 (by simp [Instr.modes]))) hhigh
  | jumpIfTrue | jumpIfFalse =>
    exact congr (congr (congrArg _ (hmode 0 (by simp [Instr.modes])))
      (hmode 1 (by simp [Instr.modes]))) hhigh
  | input | output => exact congr (congrArg _ (hmode 0 (by simp [Instr.modes]))) hhigh
  | halt => exact congrArg Instr.halt hhigh

/-- Settles O1: the opcode, each mode and the unread digits are read back from their digits. -/
theorem decodeEncodeRoundTrip : Obligations.DecodeEncodeRoundTrip :=
  fun i h => decode_ok_iff.2 ⟨i.opcode, opc_of_digits i.opcode.number_lt, (instrOf_encode h).symm⟩

/-! #### The word of a decoded instruction -/

theorem Mode.digit_ofDigit {d : Int} (hd : 0 ≤ d) : ((Mode.ofDigit d).digit : Int) = d := by
  unfold Mode.ofDigit
  split
  · simp [Mode.digit, *]
  · split
    · simp [Mode.digit, *]
    · exact Int.toNat_of_nonneg hd

theorem modeOf_wellFormed (hw : 0 ≤ w) (k : Nat) : (modeOf w k).wellFormed = true :=
  Mode.ofDigit_wellFormed (modeDigit_bounds hw k).1 (modeDigit_bounds hw k).2

/-- An operand's mode digit stands in front of the digits above it (R45). -/
theorem digit_modeOf_add (hw : 0 ≤ w) (n : Nat) :
    (modeOf w (n + 1)).digit + 10 * digitsFrom w (n + 3) = digitsFrom w (n + 2) := by
  have hdigit : ((modeOf w (n + 1)).digit : Int) = w / 100 / ((10 ^ n : Nat) : Int) % 10 := by
    rw [modeOf, Mode.digit_ofDigit (modeDigit_bounds hw _).1, modeDigit_of_nonneg hw,
      Int.ediv_ediv_of_nonneg (by decide), Nat.add_sub_cancel]
  have hlow := digitsFrom_of_nonneg hw n
  have hhigh : ((digitsFrom w (n + 3) : Nat) : Int) = w / 100 / ((10 ^ n : Nat) : Int) / 10 := by
    rw [digitsFrom_of_nonneg hw (n + 1), pow_succ, Nat.cast_mul,
      ← Int.ediv_ediv_of_nonneg (Int.natCast_nonneg _)]
    rfl
  omega

/-- The modes and unread digits read from a word are all of its digits above the opcode. -/
theorem encodeDigits_instrOf (hw : 0 ≤ w) (o : Opcode) :
    encodeDigits (o.instrOf w).modes (o.instrOf w).high = digitsFrom w 2 := by
  have h1 : (modeOf w 1).digit + 10 * digitsFrom w 3 = digitsFrom w 2 := digit_modeOf_add hw 0
  have h2 : (modeOf w 2).digit + 10 * digitsFrom w 4 = digitsFrom w 3 := digit_modeOf_add hw 1
  have h3 : (modeOf w 3).digit + 10 * digitsFrom w 5 = digitsFrom w 4 := digit_modeOf_add hw 2
  cases o <;> simp only [Opcode.instrOf, Instr.modes, Instr.high, encodeDigits, h1, h2, h3]

theorem instrOf_wellFormed (hw : 0 ≤ w) (o : Opcode) : (o.instrOf w).wellFormed = true := by
  have hmode := modeOf_wellFormed hw
  cases o <;> simp [Opcode.instrOf, Instr.wellFormed, Instr.modes, hmode]

theorem encode_instrOf {o : Opcode} (ho : opc w = (o.number : Int)) : encode (o.instrOf w) = w := by
  have hw := nonneg_of_opc ho
  have hhigh : ((digitsFrom w 2 : Nat) : Int) = w / 100 := by simpa using digitsFrom_of_nonneg hw 0
  rw [opc_of_nonneg hw] at ho
  rw [encode, encodeDigits_instrOf hw, Opcode.instrOf_opcode]
  omega

/-- Settles O2: the opcode and the digits above it are the whole word, which is not negative. -/
theorem encodeDecodeRoundTrip : Obligations.EncodeDecodeRoundTrip := by
  intro w i h
  obtain ⟨o, ho, rfl⟩ := decode_ok_iff.1 h
  exact ⟨encode_instrOf ho, instrOf_wellFormed (nonneg_of_opc ho) o⟩

/-- Settles O6: a word that carries an opcode's number is not negative (R53). -/
theorem negativeWordsAreNoInstruction : Obligations.NegativeWordsAreNoInstruction :=
  fun _ hneg => decode_of_unlisted fun _ ho => Int.not_le.2 hneg (nonneg_of_opc ho)

/-- Settles O7, word by word. -/
theorem sampleWordsDecode : Obligations.SampleWordsDecode := by
  unfold Obligations.SampleWordsDecode
  decide

/-- Settles O8, from the table of R50. -/
theorem operandsAndLengths : Obligations.OperandsAndLengths := by
  unfold Obligations.OperandsAndLengths
  decide

/-! #### The assembler's canonical words (R57, R58) -/

theorem encodeDigits_zero_lt (hms : ∀ m ∈ ms, m.wellFormed = true) :
    encodeDigits ms 0 < 10 ^ ms.length :=
  (Nat.div_eq_zero_iff_lt (by positivity)).1 (encodeDigits_high hms)

theorem Instr.length_modes (i : Instr) : i.modes.length = i.opcode.operands.length := by
  cases i <;> rfl

theorem Opcode.length_operands_le (o : Opcode) : o.operands.length ≤ 3 := by cases o <;> decide

/-- With no unread digits the word has at most the five digits ABCDE (R45). -/
theorem encode_lt (h : i.wellFormed = true) (hhigh : i.high = 0) : encode i < 100000 := by
  have hdigits := encodeDigits_zero_lt (modes_wellFormed h)
  have hpow : 10 ^ i.modes.length ≤ 10 ^ 3 :=
    Nat.pow_le_pow_right (by decide) (i.length_modes ▸ i.opcode.length_operands_le)
  have hnum := i.opcode.number_lt
  rw [encode, hhigh]
  omega

@[simp] theorem Mode.position_wellFormed : Mode.position.wellFormed = true := rfl

@[simp] theorem Machine.AsmSource.mode_wellFormed (a : Machine.AsmSource) :
    a.mode.wellFormed = true := by cases a <;> rfl

/-- The instruction of a line has well-formed modes, no unread digit, and one operand for each of the
line's cells. -/
theorem Machine.AsmLine.instr?_some {l : Machine.AsmLine} (h : l.instr? = some i) :
    i.wellFormed = true ∧ i.high = 0 ∧ l.cells.length = i.opcode.operands.length := by
  cases l <;> cases h <;>
    simp [Instr.wellFormed, Instr.modes, Instr.high, Machine.AsmLine.cells, Instr.opcode,
      Opcode.operands]

/-- Settles O10: the word is the encoding of a well-formed instruction without unread digits. -/
theorem assembledLineDecodes : Obligations.AssembledLineDecodes := by
  intro l i h
  obtain ⟨hwf, hhigh, hcells⟩ := Machine.AsmLine.instr?_some h
  refine ⟨encode i, l.expand.cells, ?_, decodeEncodeRoundTrip i hwf, hhigh, encode_nonneg i,
    encode_lt hwf hhigh, rfl, hcells⟩
  simp [Machine.AsmLine.assemble, h]

end Sys2Proof

/-! ### The machine's invariant (spec/10_state.md): O41, O42 -/

namespace Sys2Proof

/-- The digits of a word are at least each of its modes' digits. -/
theorem digit_le_encodeDigits {m : Mode} {ms : List Mode} {high : Nat} (h : m ∈ ms) :
    m.digit ≤ encodeDigits ms high := by
  induction ms with
  | nil => cases h
  | cons m' ms ih =>
    rw [encodeDigits_cons]
    obtain rfl | h := List.mem_cons.1 h
    · omega
    · have := ih h
      omega

theorem digit_le_encode {m : Mode} {i : Instr} (h : m ∈ i.modes) : (m.digit : Int) ≤ encode i := by
  have := digit_le_encodeDigits (high := i.high) h
  rw [encode]
  omega

end Sys2Proof

namespace Sys2Proof.Machine

variable {s t : State} {i : Instr} {m m1 m2 m3 : Mode} {k : Nat} {d v : Int} {f : FaultCause}
  {α β : Type}

/-! #### Which values are words (R6, R7) -/

/-- The constraint of R6, as a bound on the word range. -/
theorem memWords_le_maxWord {c : Config} (h : configWellFormed c = true) :
    (c.memWords : Int) + 3 ≤ maxWord c.wordBits := by
  rw [configWellFormed_iff] at h
  rw [maxWord]
  omega

/-- A block that can hold one word has words for all five cause codes. -/
theorem five_le_maxWord {c : Config} (h : configWellFormed c = true) (hpos : 0 < c.memWords) :
    5 ≤ maxWord c.wordBits := by
  rw [configWellFormed_iff] at h
  have hn : 3 ≤ c.wordBits - 1 := by
    by_contra hlt
    have hle : 2 ^ (c.wordBits - 1) ≤ 2 ^ 2 := Nat.pow_le_pow_right (by decide) (by omega)
    omega
  have hpow : 2 ^ 3 ≤ 2 ^ (c.wordBits - 1) := Nat.pow_le_pow_right (by decide) hn
  rw [maxWord]
  omega

theorem isWord_of_nonneg (h0 : 0 ≤ v) (h : v ≤ maxWord s.cfg.wordBits) : IsWord s v :=
  ⟨by rw [minWord_maxWord]; omega, h⟩

/-- Zero and the numbers up to 3 are words in every block that meets R6. -/
theorem Inv.isWord_small (h : Inv s) (h0 : 0 ≤ v) (h3 : v ≤ 3) : IsWord s v :=
  isWord_of_nonneg h0 (by have := memWords_le_maxWord h.config; omega)

/-- R6: `pc + k` never leaves the word range. -/
theorem Inv.isWord_pc_add (h : Inv s) (hpc : InImage s s.pc) (hk : k ≤ 4) :
    IsWord s (s.pc + (k : Int)) := by
  have hmax := memWords_le_maxWord h.config
  have hlen := h.len_le
  obtain ⟨h0, hlt⟩ := hpc
  exact isWord_of_nonneg (by omega) (by omega)

theorem Inv.isWord_zero (h : Inv s) : IsWord s 0 := h.isWord_small le_rfl (by decide)

theorem FaultCause.code_range (f : FaultCause) : 1 ≤ f.code ∧ f.code ≤ 5 := by
  cases f <;> simp [FaultCause.code]

/-- A block that fetched an instruction holds a word, so every cause's code is a word. -/
theorem Inv.isWord_code (h : Inv s) (hpc : InImage s s.pc) (f : FaultCause) : IsWord s f.code := by
  have hlen := h.len_le
  have hmax := five_le_maxWord h.config (by omega)
  obtain ⟨h1, h5⟩ := f.code_range
  exact isWord_of_nonneg (by omega) (by omega)

/-- A cell that is not listed holds 0. -/
theorem Memory.read_eq_zero_or_mem (m : Memory) (a : Nat) : m.read a = 0 ∨ (a, m.read a) ∈ m := by
  induction m with
  | nil => exact .inl rfl
  | cons c m ih =>
    obtain ⟨b, x⟩ := c
    rw [Memory.read_cons]
    split
    · rename_i hab
      exact .inr (hab ▸ List.mem_cons_self)
    · exact ih.imp id (List.mem_cons_of_mem _)

theorem Inv.isWord_memRead (h : Inv s) (a : Int) : IsWord s (memRead s a) := by
  obtain h0 | hmem := Memory.read_eq_zero_or_mem s.mem a.toNat
  · rw [memRead, h0]
    exact h.isWord_zero
  · exact h.mem_word _ hmem

/-! #### The updates that keep the invariant -/

theorem Inv.memWrite (h : Inv s) (hd : inBounds s d = true) (hv : IsWord s v) :
    Inv (memWrite s d v) where
  __ := h
  mem_wf := Memory.wf_write _ _ h.mem_wf
  mem_below c hc := by
    obtain ⟨rfl, -⟩ | hc := Memory.mem_write hc
    · have := inBounds_iff.1 hd
      show d.toNat < s.len
      omega
    · exact h.mem_below c hc
  mem_word c hc := by
    obtain ⟨rfl, -⟩ | hc := Memory.mem_write hc
    · exact hv
    · exact h.mem_word c hc

theorem Inv.setPc (h : Inv s) (hrun : s.status = .running) (hv : IsWord s v) : Inv (setPc s v) where
  __ := h
  pc_word := hv
  ready_start hs := by cases hrun.symm.trans hs
  halted_pc hs := by cases hrun.symm.trans hs
  fault_entry hs := by cases hrun.symm.trans hs

theorem Inv.emit (h : Inv s) (hrun : s.status = .running) (hv : IsWord s v) : Inv (emit s v) where
  __ := h
  out_word x hx := by
    obtain hx | hx := List.mem_append.1 hx
    · exact h.out_word x hx
    · rw [List.mem_singleton.1 hx]
      exact hv
  ready_start hs := by cases hrun.symm.trans hs

theorem Inv.setHalted (h : Inv s) (hrun : s.status = .running) (hpc : InImage s s.pc) :
    Inv (setHalted s) where
  __ := h
  ready_start := nofun
  halted_pc _ := hpc
  fault_zero _ := h.fault_zero (by rw [hrun]; decide)
  fault_entry := nofun

/-- Every field of the cause's record is a word of the machine, and its offset is one that an instruction
has (R87). -/
structure CauseFits (s : State) (f : FaultCause) : Prop where
  code : IsWord s f.code
  value : IsWord s f.value
  operand : 0 ≤ f.operand ∧ f.operand ≤ 3
  index : IsWord s f.index

/-- Fault entry keeps the invariant where the record fits. -/
theorem Inv.raise (h : Inv s) (hf : CauseFits s f) : Inv (raise s f) where
  __ := h
  fcause_word := hf.code
  fpc_word := h.pc_word
  fvalue_word := hf.value
  foperand_word := h.isWord_small hf.operand.1 hf.operand.2
  findex_word := hf.index
  ready_start := nofun
  halted_pc := nofun
  fault_zero hs := absurd rfl hs
  fault_entry _ := ⟨f.code_range.1, f.code_range.2, rfl, hf.operand.1, hf.operand.2⟩

/-! #### The faults an instruction can raise have records of words -/

/-- The computation ends with a value that meets `P`, or raises a cause whose record fits. -/
def Ends (s : State) (P : α → Prop) : Except FaultCause α → Prop
  | .ok a => P a
  | .error f => CauseFits s f

theorem ends_iff {P : α → Prop} {x : Except FaultCause α} :
    Ends s P x ↔ (∀ a, x = .ok a → P a) ∧ ∀ f, x = .error f → CauseFits s f := by
  cases x <;> simp [Ends]

theorem Ends.bind {P : α → Prop} {Q : β → Prop} {x : Except FaultCause α}
    {g : α → Except FaultCause β} (hx : Ends s P x) (hg : ∀ a, P a → Ends s Q (g a)) :
    Ends s Q (x >>= g) := by
  cases x with
  | ok a => exact hg a hx
  | error f => exact hx

theorem Ends.inv_of_complete {x : Except FaultCause State} (h : Inv s) (hx : Ends s Inv x)
    (hc : complete s x = .next t) : Inv t := by
  obtain rfl | ⟨f, rfl, rfl⟩ := complete_cases hc
  · exact hx
  · exact h.raise hx

/-- A RUNNING block that meets the invariant is about to run `i`, whose word it fetched. -/
structure Fetched (s : State) (i : Instr) : Prop where
  inv : Inv s
  running : s.status = .running
  pc_in : InImage s s.pc
  word : memRead s s.pc = encode i

section Fetched

variable (h : Fetched s i)

include h

theorem Fetched.isWord_encode : IsWord s (encode i) := h.word ▸ h.inv.isWord_memRead s.pc

/-- The digit that UnknownAddressingMode records is smaller than the fetched word. -/
theorem Fetched.causeFits_mode {e : Nat} (hm : .unknown e ∈ i.modes) (hk : k ≤ 3) :
    CauseFits s (.unknownAddressingMode (e : Int) k) where
  code := h.inv.isWord_code h.pc_in _
  value := isWord_of_nonneg (Int.natCast_nonneg e) ((digit_le_encode hm).trans h.isWord_encode.2)
  operand := ⟨Int.natCast_nonneg k, Int.ofNat_le.2 hk⟩
  index := h.inv.isWord_zero

theorem Fetched.causeFits_outOfBounds (hd : IsWord s d) (hk : k ≤ 3) :
    CauseFits s (.outOfBounds d k) where
  code := h.inv.isWord_code h.pc_in _
  value := h.inv.isWord_zero
  operand := ⟨Int.natCast_nonneg k, Int.ofNat_le.2 hk⟩
  index := hd

theorem Fetched.causeFits_immediateDestination (hk : k ≤ 3) :
    CauseFits s (.immediateDestination k) where
  code := h.inv.isWord_code h.pc_in _
  value := h.inv.isWord_small (v := 1) (by decide) (by decide)
  operand := ⟨Int.natCast_nonneg k, Int.ofNat_le.2 hk⟩
  index := h.inv.isWord_zero

theorem Fetched.causeFits_overflow : CauseFits s (.arithmeticOverflow (encode i)) where
  code := h.inv.isWord_code h.pc_in _
  value := h.isWord_encode
  operand := ⟨le_rfl, Int.natCast_nonneg 3⟩
  index := h.inv.isWord_zero

theorem Fetched.readOperand_ends (hm : m ∈ i.modes) (hk : k ≤ 3) :
    Ends s (IsWord s) (readOperand s m k) := by
  refine ends_iff.2 ⟨fun v hv => ?_, fun f hf => ?_⟩
  · obtain ⟨-, ⟨-, rfl⟩ | ⟨-, -, rfl⟩⟩ := readOperand_ok_iff.1 hv <;> exact h.inv.isWord_memRead _
  · obtain ⟨e, rfl, rfl⟩ | ⟨-, -, rfl⟩ | ⟨-, -, -, rfl⟩ := readOperand_error_iff.1 hf
    · exact h.causeFits_mode hm hk
    · exact h.causeFits_outOfBounds (h.inv.isWord_pc_add h.pc_in (by omega)) hk
    · exact h.causeFits_outOfBounds (h.inv.isWord_memRead _) hk

theorem Fetched.destOperand_ends (hm : m ∈ i.modes) (hk : k ≤ 3) :
    Ends s (fun d => inBounds s d = true) (destOperand s m k) := by
  refine ends_iff.2 ⟨fun v => destOperand_inBounds, fun f hf => ?_⟩
  obtain ⟨e, rfl, rfl⟩ | ⟨-, rfl⟩ | ⟨-, -, rfl⟩ | ⟨-, -, -, rfl⟩ := destOperand_error_iff.1 hf
  · exact h.causeFits_mode hm hk
  · exact h.causeFits_immediateDestination hk
  · exact h.causeFits_outOfBounds (h.inv.isWord_pc_add h.pc_in (by omega)) hk
  · exact h.causeFits_outOfBounds (h.inv.isWord_memRead _) hk

/-- The ALU answers a word, wrapped or not, or records the fetched word (R71). -/
theorem Fetched.aluResult_ends (exact : Int) :
    Ends s (IsWord s) (aluResult s.cfg (encode i) exact) := by
  obtain ⟨hfits, hr⟩ | ⟨-, -, hr⟩ | ⟨-, -, hr⟩ := aluResult_cases s.cfg (encode i) exact <;> rw [hr]
  · exact fitsW_iff.1 hfits
  · exact h.causeFits_overflow
  · obtain ⟨n, hn⟩ := wordBits_pos h.inv.config
    rw [Ends, IsWord, hn]
    exact wrapW_isWord n exact

/-- A comparison's result is a word (R83). -/
theorem Fetched.isWord_bit (p : Prop) [Decidable p] : IsWord s (if p then 1 else 0) := by
  split <;> exact h.inv.isWord_small (by decide) (by decide)

/-! #### The shapes keep the invariant -/

theorem Fetched.advance_inv (ht : Inv t) (hrun : t.status = s.status) (hpc : t.pc = s.pc)
    (hcfg : t.cfg = s.cfg) (hk : k ≤ 4) : Inv (advance t k) :=
  ht.setPc (hrun.trans h.running) <| by
    rw [IsWord, hpc, hcfg]
    exact h.inv.isWord_pc_add h.pc_in hk

theorem Fetched.store_inv (hd : inBounds s d = true) (hv : IsWord s v) (hk : k ≤ 4) :
    Inv (advance (Machine.memWrite s d v) k) :=
  h.advance_inv (h.inv.memWrite hd hv) rfl rfl rfl hk

theorem Fetched.binaryOp_ends {result : Int → Int → Except FaultCause Int}
    (hmodes : i.modes = [m1, m2, m3]) (hresult : ∀ a b, Ends s (IsWord s) (result a b)) :
    Ends s Inv (binaryOp result m1 m2 m3 s) :=
  (h.readOperand_ends (by simp [hmodes]) (by decide)).bind fun a _ =>
    (h.readOperand_ends (by simp [hmodes]) (by decide)).bind fun b _ =>
      (hresult a b).bind fun _ hr =>
        (h.destOperand_ends (by simp [hmodes]) (by decide)).bind fun _ hd =>
          h.store_inv hd hr (by decide)

theorem Fetched.condJump_ends (taken : Int → Bool) (hmodes : i.modes = [m1, m2]) :
    Ends s Inv (condJump taken m1 m2 s) := by
  refine (h.readOperand_ends (by simp [hmodes]) (by decide)).bind fun c _ => ?_
  cases taken c with
  | true =>
    exact (h.readOperand_ends (by simp [hmodes]) (by decide)).bind fun _ hp =>
      h.inv.setPc h.running hp
  | false => exact h.advance_inv h.inv rfl rfl rfl (by decide)

theorem Fetched.inputOp_ends (hmodes : i.modes = [m1]) : Ends s Inv (inputOp m1 s) :=
  (h.destOperand_ends (by simp [hmodes]) (by decide)).bind fun _ hd =>
    h.store_inv hd h.inv.inlat_word (by decide)

theorem Fetched.outputOp_ends (hmodes : i.modes = [m1]) : Ends s Inv (outputOp m1 s) :=
  (h.readOperand_ends (by simp [hmodes]) (by decide)).bind fun _ hv =>
    h.advance_inv (h.inv.emit h.running hv) rfl rfl rfl (by decide)

theorem Fetched.exec_inv (hexec : exec i s = .next t) : Inv t := by
  cases i with
  | add | multiply =>
    exact (h.binaryOp_ends rfl fun _ _ => h.aluResult_ends _).inv_of_complete h.inv hexec
  | lessThan =>
    exact Ends.inv_of_complete h.inv (h.binaryOp_ends (result := fun a b => .ok (lessThanResult a b))
      rfl fun a b => h.isWord_bit (a < b)) hexec
  | equals =>
    exact Ends.inv_of_complete h.inv (h.binaryOp_ends (result := fun a b => .ok (equalsResult a b))
      rfl fun a b => h.isWord_bit (a = b)) hexec
  | jumpIfTrue | jumpIfFalse => exact (h.condJump_ends _ rfl).inv_of_complete h.inv hexec
  | input => exact (h.inputOp_ends rfl).inv_of_complete h.inv hexec
  | output => exact (h.outputOp_ends rfl).inv_of_complete h.inv hexec
  | halt =>
    rw [exec_halt] at hexec
    cases hexec
    exact h.inv.setHalted h.running h.pc_in

end Fetched

/-! #### The step and power-on -/

/-- What the fetch raises is OutOfBounds of pc, a code every block has a word for, or UnknownOpcode of a
memory word. -/
theorem Inv.causeFits_of_fetch (h : Inv s) (hf : fetchInstr s = .error f) : CauseFits s f := by
  obtain ⟨-, rfl⟩ | ⟨hpc, w, hdec, rfl⟩ := fetchInstr_error_iff.1 hf
  · exact ⟨h.isWord_small (v := 3) (by decide) le_rfl, h.isWord_zero, ⟨le_rfl, Int.natCast_nonneg 3⟩,
      h.pc_word⟩
  · have hw : w = memRead s s.pc := by
      have hunlisted := decode_of_unlisted (opc_ne_number_of_decode_error hdec)
      cases hunlisted.symm.trans hdec
      rfl
    exact ⟨h.isWord_code (inBounds_iff.1 hpc) _, hw ▸ h.isWord_memRead s.pc,
      ⟨le_rfl, Int.natCast_nonneg 3⟩, h.isWord_zero⟩

/-- Settles O42: the fetched instruction's word is a memory word, so whatever it stores, outputs, jumps to
or records is a word; and the fetch's own faults record words. -/
theorem stepKeepsTheInvariant : Obligations.StepKeepsTheInvariant := by
  intro s t hinv hstep
  obtain ⟨hrun, ⟨i, hfetch, hexec⟩ | ⟨f, hf, rfl⟩⟩ := step_next_iff.1 hstep
  · obtain ⟨hpc, hdec⟩ := fetchInstr_ok_iff.1 hfetch
    have hword := (encodeDecodeRoundTrip _ _ hdec).1.symm
    exact Fetched.exec_inv ⟨hinv, hrun, inBounds_iff.1 hpc, hword⟩ hexec
  · exact hinv.raise (hinv.causeFits_of_fetch hf)

/-- A loaded image meets the invariant, whatever the state before. -/
theorem loadState_inv {P : List Int} (hcfg : configWellFormed s.cfg = true)
    (hlen : P.length ≤ s.cfg.memWords) (hP : ∀ v ∈ P, IsWord s v) : Inv (loadState P s) := by
  have hmem : ∀ c ∈ Memory.ofList P, c.1 < P.length ∧ c.2 ∈ P := fun c hc => by
    obtain ⟨-, hlt, hin⟩ := Memory.mem_ofListFrom hc
    exact ⟨by omega, hin⟩
  have hzero : IsWord s 0 :=
    isWord_of_nonneg le_rfl (by have := memWords_le_maxWord hcfg; omega)
  exact {
    config := hcfg
    len_le := hlen
    mem_wf := Memory.wf_ofList P
    mem_below := fun c hc => (hmem c hc).1
    mem_word := fun c hc => hP _ (hmem c hc).2
    pc_word := hzero
    inlat_word := hzero
    out_word := nofun
    fcause_word := hzero
    fpc_word := hzero
    fvalue_word := hzero
    foperand_word := hzero
    findex_word := hzero
    ready_start := fun _ => ⟨rfl, rfl, rfl⟩
    halted_pc := nofun
    fault_zero := fun _ => rfl
    fault_entry := nofun }

theorem loadState_nil_powerOn (c : Config) : loadState [] (State.powerOn c) = State.powerOn c := rfl

/-- Settles O41: power-on is the load of the empty image (R26), and the reset's parameters meet R6. -/
theorem powerOnMeetsTheInvariant : Obligations.PowerOnMeetsTheInvariant := by
  have hpower : ∀ c : Config, configWellFormed c = true → Inv (State.powerOn c) := fun c hc =>
    loadState_nil_powerOn c ▸ loadState_inv (s := State.powerOn c) hc (Nat.zero_le _) nofun
  exact ⟨hpower, hpower Config.default (by decide)⟩

end Sys2Proof.Machine

/-! ### What a step can observe (spec/10_state.md section 7): O45 -/

namespace Sys2Proof.Machine

variable {s1 s2 t1 t2 : State} {m1 m2 m3 : Mode} {d : Int}

/-! #### States alike resolve every operand alike -/

theorem Alike.inBounds_eq (h : Alike s1 s2) (a : Int) : inBounds s1 a = inBounds s2 a := by
  obtain ⟨-, hlen, -⟩ := h
  simp only [inBounds, hlen]

theorem Alike.memRead_eq (h : Alike s1 s2) (hd : inBounds s1 d = true) :
    memRead s1 d = memRead s2 d := by
  obtain ⟨-, -, -, -, -, hmem⟩ := h
  have hin := inBounds_iff.1 hd
  exact hmem d.toNat (by omega)

theorem Alike.pc_eq (h : Alike s1 s2) : s1.pc = s2.pc := by
  obtain ⟨-, -, hpc, -⟩ := h
  exact hpc

theorem Alike.resolve_eq (h : Alike s1 s2) (m : Mode) (k : Nat) : resolve s1 m k = resolve s2 m k := by
  cases m with
  | immediate => simp only [resolve, h.pc_eq]
  | unknown e => rfl
  | position =>
    simp only [resolve, ← h.pc_eq, ← h.inBounds_eq]
    split_ifs with hin
    · rw [h.memRead_eq hin]
    · rfl

theorem Alike.checkIndex_eq (h : Alike s1 s2) (d : Int) (k : Nat) :
    checkIndex s1 d k = checkIndex s2 d k := by
  simp only [checkIndex, h.inBounds_eq]

theorem Alike.destOperand_eq (h : Alike s1 s2) (m : Mode) (k : Nat) :
    destOperand s1 m k = destOperand s2 m k := by
  simp only [destOperand, h.resolve_eq, h.checkIndex_eq]

/-- `read(k)` reads memory only at the index it has checked (R62). -/
theorem Alike.readOperand_eq (h : Alike s1 s2) (m : Mode) (k : Nat) :
    readOperand s1 m k = readOperand s2 m k := by
  simp only [readOperand, ← h.resolve_eq, ← h.checkIndex_eq]
  refine bind_congr fun a => ?_
  cases hc : checkIndex s1 a k with
  | error f => rfl
  | ok j =>
    obtain ⟨rfl, hin⟩ := checkIndex_ok hc
    exact congrArg Except.ok (h.memRead_eq hin)

/-! #### Updates keep states alike -/

theorem Alike.memWrite (h : Alike s1 s2) (d v : Int) : Alike (memWrite s1 d v) (memWrite s2 d v) := by
  obtain ⟨hcfg, hlen, hpc, hstatus, hinlat, hmem⟩ := h
  refine ⟨hcfg, hlen, hpc, hstatus, hinlat, fun a ha => ?_⟩
  by_cases hd : a = d.toNat
  · simp [hd]
  · rw [memWrite_read_other _ _ _ hd, memWrite_read_other _ _ _ hd, hmem a ha]

theorem Alike.setPc (h : Alike s1 s2) (v : Int) : Alike (setPc s1 v) (setPc s2 v) := by
  obtain ⟨hcfg, hlen, -, hstatus, hinlat, hmem⟩ := h
  exact ⟨hcfg, hlen, rfl, hstatus, hinlat, hmem⟩

theorem Alike.advance (h : Alike s1 s2) (n : Nat) : Alike (advance s1 n) (advance s2 n) := by
  have := h.setPc (s1.pc + (n : Int))
  rwa [Machine.advance, Machine.advance, ← h.pc_eq]

theorem Alike.emit (h : Alike s1 s2) (v : Int) : Alike (emit s1 v) (emit s2 v) := h

theorem Alike.setHalted (h : Alike s1 s2) : Alike (setHalted s1) (setHalted s2) := by
  obtain ⟨hcfg, hlen, hpc, -, hinlat, hmem⟩ := h
  exact ⟨hcfg, hlen, hpc, rfl, hinlat, hmem⟩

theorem Alike.raise (h : Alike s1 s2) (f : FaultCause) : Alike (raise s1 f) (raise s2 f) := by
  obtain ⟨hcfg, hlen, hpc, -, hinlat, hmem⟩ := h
  exact ⟨hcfg, hlen, hpc, rfl, hinlat, hmem⟩

/-! #### Instructions end alike -/

/-- Two instructions' ends that a program cannot tell apart: both complete, with the same words appended
to the logs, or both raise the same fault. -/
inductive EndsAlike (s1 s2 : State) : Except FaultCause State → Except FaultCause State → Prop
  | completes {t1 t2 : State} (vs : List Int) (alike : Alike t1 t2) (out1 : t1.out = s1.out ++ vs)
      (out2 : t2.out = s2.out ++ vs) (live : t1.status ≠ .faulted) : EndsAlike s1 s2 (.ok t1) (.ok t2)
  | raises (f : FaultCause) : EndsAlike s1 s2 (.error f) (.error f)

/-- Computations that begin alike and go on alike end alike. -/
theorem EndsAlike.bind {α : Type} {x1 x2 : Except FaultCause α} {g1 g2 : α → Except FaultCause State}
    (hx : x1 = x2) (hg : ∀ a, EndsAlike s1 s2 (g1 a) (g2 a)) :
    EndsAlike s1 s2 (x1 >>= g1) (x2 >>= g2) := by
  subst hx
  cases x1 with
  | ok a => exact hg a
  | error f => exact .raises f

/-- A completion that appends nothing. -/
theorem EndsAlike.silent (h : Alike t1 t2) (h1 : t1.out = s1.out) (h2 : t2.out = s2.out)
    (hlive : t1.status ≠ .faulted) : EndsAlike s1 s2 (.ok t1) (.ok t2) :=
  .completes [] h (by simp [h1]) (by simp [h2]) hlive

section

variable (h : Alike s1 s2) (hlive : s1.status ≠ .faulted)

include h hlive

theorem endsAlike_binaryOp {result1 result2 : Int → Int → Except FaultCause Int}
    (hresult : ∀ a b, result1 a b = result2 a b) :
    EndsAlike s1 s2 (binaryOp result1 m1 m2 m3 s1) (binaryOp result2 m1 m2 m3 s2) :=
  .bind (h.readOperand_eq m1 1) fun a => .bind (h.readOperand_eq m2 2) fun b =>
    .bind (hresult a b) fun r => .bind (h.destOperand_eq m3 3) fun d =>
      .silent ((h.memWrite d r).advance 4) rfl rfl hlive

theorem endsAlike_condJump (taken : Int → Bool) :
    EndsAlike s1 s2 (condJump taken m1 m2 s1) (condJump taken m1 m2 s2) := by
  refine .bind (h.readOperand_eq m1 1) fun c => ?_
  cases taken c with
  | true => exact .bind (h.readOperand_eq m2 2) fun p => .silent (h.setPc p) rfl rfl hlive
  | false => exact .silent (h.advance 3) rfl rfl hlive

theorem endsAlike_inputOp : EndsAlike s1 s2 (inputOp m1 s1) (inputOp m1 s2) := by
  have hinlat : s1.inlat = s2.inlat := by
    obtain ⟨-, -, -, -, hinlat, -⟩ := h
    exact hinlat
  refine .bind (h.destOperand_eq m1 1) fun d => ?_
  rw [hinlat]
  exact .silent ((h.memWrite d s2.inlat).advance 2) rfl rfl hlive

theorem endsAlike_outputOp : EndsAlike s1 s2 (outputOp m1 s1) (outputOp m1 s2) :=
  .bind (h.readOperand_eq m1 1) fun v => .completes [v] ((h.emit v).advance 2) rfl rfl hlive

/-- Each instruction's meaning ends alike from states alike. -/
theorem exec_endsAlike (i : Instr) : ∃ x1 x2, EndsAlike s1 s2 x1 x2 ∧
    exec i s1 = complete s1 x1 ∧ exec i s2 = complete s2 x2 := by
  have hcfg : s1.cfg = s2.cfg := by
    obtain ⟨hcfg, -⟩ := h
    exact hcfg
  cases i with
  | add | multiply =>
    exact ⟨_, _, endsAlike_binaryOp h hlive fun _ _ => by rw [hcfg], rfl, rfl⟩
  | lessThan | equals => exact ⟨_, _, endsAlike_binaryOp h hlive fun _ _ => rfl, rfl, rfl⟩
  | jumpIfTrue | jumpIfFalse => exact ⟨_, _, endsAlike_condJump h hlive _, rfl, rfl⟩
  | input => exact ⟨_, _, endsAlike_inputOp h hlive, rfl, rfl⟩
  | output => exact ⟨_, _, endsAlike_outputOp h hlive, rfl, rfl⟩
  | halt => exact ⟨_, _, .silent h.setHalted rfl rfl nofun, rfl, rfl⟩

end

theorem Alike.fetchInstr_eq (h : Alike s1 s2) : fetchInstr s1 = fetchInstr s2 := by
  simp only [fetchInstr, ← h.pc_eq, ← h.inBounds_eq]
  split_ifs with hin
  · rw [h.memRead_eq hin]
  · rfl

/-- A step of a RUNNING block is the fetch, the instruction, and its completion or fault entry. -/
theorem step_endsAlike (h : Alike s1 s2) (hrun : s1.status = .running) : ∃ x1 x2,
    EndsAlike s1 s2 x1 x2 ∧ step s1 = complete s1 x1 ∧ step s2 = complete s2 x2 := by
  have hrun2 : s2.status = .running := by
    obtain ⟨-, -, -, hstatus, -⟩ := h
    rw [← hstatus, hrun]
  cases hf : fetchInstr s1 with
  | ok i =>
    rw [step_of_fetch_ok hrun hf, step_of_fetch_ok hrun2 (h.fetchInstr_eq ▸ hf)]
    exact exec_endsAlike h (by rw [hrun]; decide) i
  | error f =>
    exact ⟨_, _, .raises f, step_next_iff.2 ⟨hrun, .inr ⟨f, hf, rfl⟩⟩,
      step_next_iff.2 ⟨hrun2, .inr ⟨f, h.fetchInstr_eq ▸ hf, rfl⟩⟩⟩

/-- Settles O45: fetch, operands and results are computed from what alike states share. -/
theorem stepReadsOnlyTheProgramState : Obligations.StepReadsOnlyTheProgramState := by
  intro s1 s2 h t1 hstep
  obtain ⟨x1, x2, hends, h1, h2⟩ := step_endsAlike h (status_of_step hstep)
  rw [h1] at hstep
  rw [h2]
  cases hends with
  | completes vs halike hout1 hout2 hlive =>
    cases hstep
    exact ⟨_, rfl, halike, ⟨vs, hout1, hout2⟩, fun ht => absurd ht hlive⟩
  | raises f =>
    cases hstep
    refine ⟨_, rfl, h.raise f, ⟨[], by simp, by simp⟩, fun _ => ?_⟩
    rw [raise_fault, raise_fault, h.pc_eq]

end Sys2Proof.Machine

/-! ### Operands and the step (spec/40_dispatch.md), the rest: O9, O12, O13, O16, O18, O19, O38 -/

namespace Sys2Proof.Machine

variable {s t : State} {i : Instr} {m1 m2 m3 : Mode} {d w exact : Int}

/-- Settles O12, by the mode and whether the operand cell and the index it names are in the image. -/
theorem destOperandIsTheNamedCell : Obligations.DestOperandIsTheNamedCell :=
  fun _ _ _ => ⟨fun _ => destOperand_ok_iff, fun _ => destOperand_error_iff⟩

/-- Settles O13: the fetch answers the decoded instruction. -/
theorem stepRunsTheDecodedInstruction : Obligations.StepRunsTheDecodedInstruction :=
  fun _ _ hrun hpc hdec => step_of_fetch_ok hrun (fetchInstr_decoded (inBounds_iff.2 hpc) hdec)

/-- Settles O16: the fetch raises OutOfBounds of pc with offset 0. -/
theorem fetchOutsideImageFaults : Obligations.FetchOutsideImageFaults :=
  fun _ hrun hpc => step_of_outside hrun hpc

/-- Settles O18, by the status. -/
theorem noStepUnlessRunning : Obligations.NoStepUnlessRunning := by
  intro s hrun
  unfold step
  cases hs : s.status with
  | running => exact absurd hs hrun
  | ready | halted | faulted => rfl

/-- Settles O38: the table of R87, row by row. -/
theorem faultRecordFields : Obligations.FaultRecordFields :=
  fun _ _ _ _ _ => ⟨rfl, rfl, rfl, rfl, rfl⟩

/-! #### The new pc (R68) -/

/-- Halt has no destination. -/
theorem opcode_ne_halt_of_storeTarget (h : storeTarget i s = some d) : i.opcode ≠ .halt := by
  cases i with
  | halt => cases h
  | _ => exact nofun

/-- Settles O19, by what an instruction can do: each way but a fault, Halt and a taken jump falls
through. -/
theorem nextPcIsFallThroughOrTarget : Obligations.NextPcIsFallThroughOrTarget := by
  intro i s t h
  obtain ⟨f, rfl⟩ | ⟨d, v, hd, _, rfl⟩ | ⟨_, _, v, rfl, _, rfl⟩ |
    ⟨m1, m2, high, hjump, rfl | ⟨p, hp, rfl⟩⟩ | ⟨⟨_, rfl⟩, rfl⟩ := exec_next_cases h
  · exact .inl ⟨f, rfl⟩
  · exact .inr (.inr (.inl ⟨opcode_ne_halt_of_storeTarget hd, rfl⟩))
  · exact .inr (.inr (.inl ⟨nofun, rfl⟩))
  · obtain rfl | rfl := hjump <;> exact .inr (.inr (.inl ⟨nofun, rfl⟩))
  · exact .inr (.inr (.inr ⟨m1, m2, high, hjump, readOperand_ok_iff.1 hp⟩))
  · exact .inr (.inl ⟨rfl, rfl⟩)

/-! #### The unread digits (R54, D19) -/

/-- What the ALU answers: the result or its wrapping, whichever word the fault would record. -/
theorem aluResult_ok_iff {c : Config} {r : Int} : aluResult c w exact = .ok r ↔
    r = (if fitsW c.wordBits exact = true then exact else wrapW c.wordBits exact) ∧
      (fitsW c.wordBits exact = false → c.overflow = .wrap) := by
  obtain ⟨hfits, hr⟩ | ⟨hfits, ho, hr⟩ | ⟨hfits, ho, hr⟩ := aluResult_cases c w exact <;>
    simp [eq_comm (a := r), *]

/-- The word that an ALU instruction would record decides nothing but that record. -/
theorem complete_alu_word (w' : Int) {c : Config} {op : Int → Int → Int}
    (h : complete s (binaryOp (fun a b => aluResult c w (op a b)) m1 m2 m3 s) = .next t)
    (hno : ∀ w, t ≠ raise s (.arithmeticOverflow w)) :
    complete s (binaryOp (fun a b => aluResult c w' (op a b)) m1 m2 m3 s) = .next t := by
  obtain hok | ⟨f, herror, rfl⟩ := complete_cases h
  · obtain ⟨a, ha, b, hb, r, hr, d, hd, rfl⟩ := binaryOp_ok_iff.1 hok
    have hr' : aluResult c w' (op a b) = .ok r := aluResult_ok_iff.2 (aluResult_ok_iff.1 hr)
    rw [binaryOp_ok_iff.2 ⟨a, ha, b, hb, r, hr', d, hd, rfl⟩, complete_ok]
  · refine complete_binaryOp_error (binaryOp_error_iff.2 ?_)
    obtain h1 | ⟨a, ha, h2 | ⟨b, hb, hr | ⟨r, hr, h3⟩⟩⟩ := binaryOp_error_iff.1 herror
    · exact .inl h1
    · exact .inr ⟨a, ha, .inl h2⟩
    · exact absurd (congrArg (raise s) (aluResult_error hr)) (hno w)
    · exact .inr ⟨a, ha, .inr ⟨b, hb, .inr ⟨r, aluResult_ok_iff.2 (aluResult_ok_iff.1 hr), h3⟩⟩⟩

/-- Settles O9: only Add and Multiply use the unread digits, and only for the record. -/
theorem unreadDigitsHaveNoEffect : Obligations.UnreadDigitsHaveNoEffect := by
  intro i high s t h hno
  cases i with
  | add m1 m2 m3 high' => exact complete_alu_word (encode (.add m1 m2 m3 high)) h hno
  | multiply m1 m2 m3 high' => exact complete_alu_word (encode (.multiply m1 m2 m3 high)) h hno
  | _ => exact h

end Sys2Proof.Machine

/-! ### The instructions (spec/41_arithmetic.md to 45_halt.md), the rest: O20, O21, O24, O27, O29, O35,
O36, O37 -/

namespace Sys2Proof.Machine

variable {s t : State} {i : Instr} {m1 m2 m3 : Mode} {c d p v w exact : Int} {f : FaultCause}

/-! #### Arithmetic (R7, R71 to R74) -/

/-- Settles O21: the wrapping is such a word, and any such word is the wrapping. -/
theorem wrapIsTheCongruentWord : Obligations.WrapIsTheCongruentWord := by
  intro n v u
  constructor
  · rintro rfl
    obtain ⟨hlo, hhi⟩ := wrapW_isWord n v
    exact ⟨hlo, hhi, Int.ModEq.dvd (wrapW_emod (n + 1) v).symm⟩
  · rintro ⟨hlo, hhi, hdvd⟩
    exact (wrapW_eq_of_dvd hlo hhi hdvd).symm

/-- Where the three-operand shape did not fault, it stored the result of the operands it read. -/
theorem complete_binaryOp_completes {result : Int → Int → Except FaultCause Int}
    (h : complete s (binaryOp result m1 m2 m3 s) = .next t) (hnofault : ∀ f, t ≠ raise s f) :
    ∃ d a b r, destOperand s m3 3 = .ok d ∧ ReadsAs s m1 1 a ∧ ReadsAs s m2 2 b ∧
      result a b = .ok r ∧ StoredAndAdvanced s t d r 4 := by
  obtain hrun | ⟨f, -, hf⟩ := complete_cases h
  · obtain ⟨a, ha, b, hb, r, hr, d, hd, rfl⟩ := binaryOp_ok_iff.1 hrun
    have hd0 := (inBounds_iff.1 (destOperand_inBounds hd)).1
    exact ⟨d, a, b, r, hd, readOperand_ok_iff.1 ha, readOperand_ok_iff.1 hb, hr,
      storedAndAdvanced_memWrite hd0 4⟩
  · exact absurd hf (hnofault f)

/-- An ALU instruction that did not fault stored the exact result or, under WRAP, its wrapping. -/
theorem complete_alu_completes {op : Int → Int → Int}
    (h : complete s (binaryOp (fun a b => aluResult s.cfg w (op a b)) m1 m2 m3 s) = .next t)
    (hnofault : ∀ f, t ≠ raise s f) :
    ∃ d a b, (destOperand s m3 3).toOption = some d ∧ ReadsAs s m1 1 a ∧ ReadsAs s m2 2 b ∧
      StoredAndAdvanced s t d
        (if fitsW s.cfg.wordBits (op a b) = true then op a b else wrapW s.cfg.wordBits (op a b)) 4 ∧
      (fitsW s.cfg.wordBits (op a b) = false → s.cfg.overflow = .wrap) := by
  obtain ⟨d, a, b, r, hd, ha, hb, hr, hstored⟩ := complete_binaryOp_completes h hnofault
  obtain ⟨rfl, hwrap⟩ := aluResult_ok_iff.1 hr
  exact ⟨d, a, b, by rw [hd]; rfl, ha, hb, hstored, hwrap⟩

/-- Settles O37: both are the three-operand shape with the ALU's result. -/
theorem arithmeticWritesOneCell : Obligations.ArithmeticWritesOneCell := by
  rintro m1 m2 m3 high i s t (rfl | rfl) hexec hnofault
  case inl =>
    obtain ⟨d, a, b, hd, ha, hb, hstored, hwrap⟩ :=
      complete_alu_completes (op := fun a b => a + b) hexec hnofault
    exact ⟨d, a, b, a + b, hd, ha, hb, fun _ => rfl, nofun, hstored, hwrap⟩
  case inr =>
    obtain ⟨d, a, b, hd, ha, hb, hstored, hwrap⟩ :=
      complete_alu_completes (op := fun a b => a * b) hexec hnofault
    exact ⟨d, a, b, a * b, hd, ha, hb, nofun, fun _ => rfl, hstored, hwrap⟩

/-! #### Input (R76) -/

/-- Input raises what its destination raises. -/
theorem exec_input_of_writeRaises (high : Nat) (h : WriteRaises s m1 1 f) :
    exec (.input m1 high) s = .next (raise s f) := by
  have hrun : inputOp m1 s = .error f := inputOp_error_iff.2 (destOperand_error_iff.2 h)
  calc exec (.input m1 high) s = complete s (inputOp m1 s) := rfl
    _ = .next (raise s f) := by rw [hrun, complete_error]

/-- Input that completes changes its destination and pc alone. -/
theorem exec_input_stores (high : Nat) (h : WritesTo s m1 1 d) :
    ∃ t, exec (.input m1 high) s = .next t ∧ StoredAndAdvanced s t d s.inlat 2 := by
  have hd0 := (inBounds_iff.1 (destOperand_inBounds (destOperand_ok_iff.2 h))).1
  exact ⟨_, exec_input_of_writesTo high h, storedAndAdvanced_memWrite hd0 2⟩

/-- Settles O24: 3 is Input's number, and its destination resolves or raises. -/
theorem inputInstruction : Obligations.InputInstruction :=
  ⟨fun _ _ hopc => decode_ok_iff.2 ⟨.input, hopc, rfl⟩,
    fun _ _ high => ⟨fun _ => exec_input_stores high, fun _ => exec_input_of_writeRaises high⟩⟩

/-! #### Jumps (R78, R80) -/

theorem exec_jumpIfTrue (m1 m2 : Mode) (high : Nat) (s : State) :
    exec (.jumpIfTrue m1 m2 high) s =
      complete s (condJump (fun c => decide (c ≠ 0)) m1 m2 s) := rfl

/-- Settles O27: 5 is JumpIfTrue's number, and of the conditional jump's four ends the conditions other
than 0 select the two that evaluate operand 2. -/
theorem jumpIfTrueInstruction : Obligations.JumpIfTrueInstruction := by
  refine ⟨fun _ _ hopc => decode_ok_iff.2 ⟨.jumpIfTrue, hopc, rfl⟩, fun s m1 m2 high => ?_⟩
  rw [exec_jumpIfTrue]
  refine ⟨?taken, ?fallsThrough, ?operand1, ?operand2⟩
  case taken => exact fun c p hc hne hp => complete_condJump_taken hc (decide_eq_true hne) hp
  case fallsThrough => exact fun hc => complete_condJump_fallsThrough hc (decide_eq_false (by simp))
  case operand1 => exact fun f => complete_condJump_raises_condition
  case operand2 => exact fun c f hc hne => complete_condJump_raises_target hc (decide_eq_true hne)

/-- A RUNNING block that fetches a jump whose condition takes it steps to the target, wherever that is. -/
theorem step_of_taken_jump {high : Nat} (hrun : s.status = .running) (hpc : InImage s s.pc)
    (hjump : (decode (memRead s s.pc) = .ok (.jumpIfTrue m1 m2 high) ∧ c ≠ 0) ∨
      (decode (memRead s s.pc) = .ok (.jumpIfFalse m1 m2 high) ∧ c = 0))
    (hc : ReadsAs s m1 1 c) (hp : ReadsAs s m2 2 p) : step s = .next (setPc s p) := by
  obtain ⟨hdec, hne⟩ | ⟨hdec, rfl⟩ := hjump
  · rw [stepRunsTheDecodedInstruction s _ hrun hpc hdec, exec_jumpIfTrue]
    exact complete_condJump_taken hc (decide_eq_true hne) hp
  · rw [stepRunsTheDecodedInstruction s _ hrun hpc hdec, exec_jumpIfFalse]
    exact complete_condJump_taken hc (decide_eq_true rfl) hp

/-- Settles O29: the jump only writes pc, and the next fetch finds it outside the image. -/
theorem badJumpTargetFaultsAtNextFetch : Obligations.BadJumpTargetFaultsAtNextFetch := by
  intro s m1 m2 high c p hrun hpc hjump hc hp hout
  have hfault : step (setPc s p) = .next (raise (setPc s p) (.outOfBounds p 0)) :=
    step_of_outside hrun hout
  exact ⟨_, _, step_of_taken_jump hrun hpc hjump hc hp, rfl, hfault, rfl, rfl, rfl, rfl, rfl, rfl⟩

/-! #### Frames (R67, R74) -/

/-- Settles O35: of what an instruction can do, these can only store or fault. -/
theorem storingInstructionsFrame : Obligations.StoringInstructionsFrame := by
  intro i s t hop h
  refine ⟨fun a => exec_keeps_cell h, ?_⟩
  obtain ⟨f, rfl⟩ | ⟨d, v, -, -, rfl⟩ | ⟨_, _, _, rfl, -, -⟩ | ⟨_, _, _, rfl | rfl, -⟩ |
    ⟨⟨_, rfl⟩, -⟩ := exec_next_cases h
  case inl => exact ⟨rfl, rfl, rfl, rfl, .inr ⟨f, rfl⟩⟩
  case inr.inl => exact ⟨rfl, rfl, rfl, rfl, .inl ⟨rfl, rfl⟩⟩
  all_goals exact absurd hop (by simp [Instr.opcode])

/-- Output, the jumps and Halt have no destination operand (R50). -/
theorem storeTarget_eq_none
    (hop : i.opcode ∈ ([.output, .jumpIfTrue, .jumpIfFalse, .halt] : List Opcode)) :
    storeTarget i s = none := by
  cases i with
  | output | jumpIfTrue | jumpIfFalse | halt => rfl
  | _ => exact absurd hop (by simp [Instr.opcode])

/-- Settles O36: of what an instruction can do, these cannot store. -/
theorem nonStoringInstructionsFrame : Obligations.NonStoringInstructionsFrame := by
  intro i s t hop h
  have hnone := storeTarget_eq_none (s := s) hop
  refine ⟨fun a => exec_keeps_cell h (by simp [hnone]), ?_⟩
  obtain ⟨f, rfl⟩ | ⟨d, _, hd, -⟩ | ⟨_, _, v, rfl, -, rfl⟩ | ⟨_, _, _, hjump, ht⟩ |
    ⟨⟨_, rfl⟩, rfl⟩ := exec_next_cases h
  · exact ⟨rfl, rfl, rfl, fun _ => rfl, .inr ⟨f, rfl⟩⟩
  · cases hnone.symm.trans hd
  · exact ⟨rfl, rfl, rfl, fun hne => absurd rfl hne, .inl ⟨rfl, fun _ => rfl, fun _ => ⟨v, rfl⟩⟩⟩
  · have hnotOutput : i.opcode ≠ .output := by obtain rfl | rfl := hjump <;> exact nofun
    obtain rfl | ⟨p, -, rfl⟩ := ht <;>
      exact ⟨rfl, rfl, rfl, fun _ => rfl, .inl ⟨rfl, fun _ => rfl, fun he => absurd he hnotOutput⟩⟩
  · exact ⟨rfl, rfl, rfl, fun _ => rfl, .inl ⟨rfl, fun hne => absurd rfl hne, nofun⟩⟩

/-! #### A stored word is fetched next (spec/20_memory.md sections 2 and 4) -/

theorem aluResult_of_aluGives (h : AluGives s exact v) : aluResult s.cfg w exact = .ok v := by
  obtain ⟨hfits, rfl⟩ | ⟨hfits, ho, rfl⟩ := h
  · exact aluResult_of_fits hfits
  · exact aluResult_of_wrap hfits ho

/-- An instruction that stores by its rule completes with that store and the fall-through alone. -/
theorem exec_of_storesWord (h : StoresWord i s d v) :
    ∃ t, exec i s = .next t ∧ StoredAndAdvanced s t d v i.opcode.length := by
  cases i with
  | add | multiply =>
    obtain ⟨a, b, ha, hb, hd, hv⟩ := h
    exact complete_binaryOp_stores ha hb hd (aluResult_of_aluGives hv)
  | lessThan | equals =>
    obtain ⟨a, b, ha, hb, hd, rfl⟩ := h
    exact complete_binaryOp_stores ha hb hd rfl
  | input =>
    obtain ⟨hd, rfl⟩ := h
    exact exec_input_stores _ hd
  | output | jumpIfTrue | jumpIfFalse | halt => exact h.elim

theorem inImage_of_writesTo {m : Mode} {k : Nat} (h : WritesTo s m k d) : InImage s d := by
  obtain ⟨-, -, -, hd⟩ := h
  exact hd

/-- The cell of such a store is in the image (R63). -/
theorem inImage_of_storesWord (h : StoresWord i s d v) : InImage s d := by
  cases i with
  | add | multiply | lessThan | equals =>
    obtain ⟨_, _, -, -, hd, -⟩ := h
    exact inImage_of_writesTo hd
  | input => exact inImage_of_writesTo h.1
  | output | jumpIfTrue | jumpIfFalse | halt => exact h.elim

theorem storeTarget_inImage (h : storeTarget i s = some d) : InImage s d := by
  have hdest : ∀ {m : Mode} {k : Nat}, (destOperand s m k).toOption = some d → InImage s d := by
    intro m k hd
    cases hx : destOperand s m k with
    | ok d' =>
      rw [hx] at hd
      cases hd
      exact inBounds_iff.1 (destOperand_inBounds hx)
    | error f =>
      rw [hx] at hd
      cases hd
  cases i with
  | add | multiply | lessThan | equals | input => exact hdest h
  | output | jumpIfTrue | jumpIfFalse | halt => cases h

/-- Without fault entry, an instruction that has a store target keeps the status and the length. -/
theorem exec_stored (h : exec i s = .next t) (hnofault : ∀ f, t ≠ raise s f)
    (hd : storeTarget i s = some d) : t.status = s.status ∧ t.len = s.len := by
  obtain ⟨f, hf⟩ | ⟨_, _, -, -, rfl⟩ | ⟨_, _, _, rfl, -, -⟩ | ⟨_, _, _, rfl | rfl, -⟩ |
    ⟨⟨_, rfl⟩, -⟩ := exec_next_cases h
  case inl => exact absurd hf (hnofault f)
  case inr.inl => exact ⟨rfl, rfl⟩
  all_goals cases hd

/-- Settles O20: the store leaves the block RUNNING with pc at the stored cell, in the image, so the next
fetch reads what was stored. -/
theorem writtenWordIsFetchedNext : Obligations.WrittenWordIsFetchedNext := by
  refine ⟨?stores, ?stored⟩
  case stores =>
    intro s i v hrun hpc hdec hstores
    obtain ⟨t, hexec, hcell, -, htpc, -, -, hstatus, hlen, -, -⟩ := exec_of_storesWord hstores
    rw [← htpc] at hcell
    have htrun : t.status = .running := hstatus.trans hrun
    have hin : InImage t t.pc := by
      rw [htpc, InImage, hlen]
      exact inImage_of_storesWord hstores
    refine ⟨t, (stepRunsTheDecodedInstruction s i hrun hpc hdec).trans hexec, htpc, hcell,
      fun j hj => ?_, fun hj => ?_⟩
    · exact stepRunsTheDecodedInstruction t j htrun hin (hcell ▸ hj)
    · exact step_of_unlisted htrun hin hcell (opc_ne_number_of_decode_error hj)
  case stored =>
    intro s t i j hstep hnofault hdec htarget hj
    obtain ⟨hrun, ⟨i', hfetch, hexec⟩ | ⟨f, -, hf⟩⟩ := step_next_iff.1 hstep
    · cases (fetchInstr_ok_iff.1 hfetch).2.symm.trans hdec
      obtain ⟨hstatus, hlen⟩ := exec_stored hexec hnofault htarget
      have hin : InImage t t.pc := by
        rw [InImage, hlen]
        exact storeTarget_inImage htarget
      exact stepRunsTheDecodedInstruction t j (hstatus.trans hrun) hin hj
    · exact absurd hf.symm (hnofault f)

end Sys2Proof.Machine

/-! ### Runs and output events (spec/40_dispatch.md section 5, spec/60_exceptions.md section 6): O44, O46,
O47, O48 -/

namespace Sys2Proof.Machine

variable {s t u : State} {v : Int} {m n k : Nat}

/-! #### What every step leaves as it is -/

theorem step_cfg_len (h : step s = .next t) : t.cfg = s.cfg ∧ t.len = s.len := by
  obtain ⟨-, ⟨i, -, hexec⟩ | ⟨f, -, rfl⟩⟩ := step_next_iff.1 h
  · obtain ⟨f, rfl⟩ | ⟨d, v, -, -, rfl⟩ | ⟨_, _, v, -, -, rfl⟩ | ⟨_, _, _, -, rfl | ⟨p, -, rfl⟩⟩ |
      ⟨-, rfl⟩ := exec_next_cases hexec
    all_goals exact ⟨rfl, rfl⟩
  · exact ⟨rfl, rfl⟩

/-- A step appends at most one word to the output log. -/
theorem step_out (h : step s = .next t) : ∃ vs, t.out = s.out ++ vs ∧ vs.length ≤ 1 := by
  obtain ⟨-, ⟨i, -, hexec⟩ | ⟨f, -, rfl⟩⟩ := step_next_iff.1 h
  · obtain hout | ⟨v, hout⟩ := exec_out hexec
    · exact ⟨[], by simp [hout], Nat.zero_le _⟩
    · exact ⟨[v], hout, le_rfl⟩
  · exact ⟨[], by simp, Nat.zero_le _⟩

theorem run_zero_iff : Host.Core.run Sys2Proof.core 0 s = .next t ↔ s = t :=
  ⟨fun h => Host.Outcome.next.inj h, fun h => h ▸ rfl⟩

theorem run_cfg_len (h : Host.Core.run Sys2Proof.core n s = .next t) :
    t.cfg = s.cfg ∧ t.len = s.len := by
  refine run_keeps (P := fun u => u.cfg = s.cfg ∧ u.len = s.len) (fun a b ha hstep => ?_) ⟨rfl, rfl⟩ h
  obtain ⟨hcfg, hlen⟩ := step_cfg_len hstep
  exact ⟨hcfg.trans ha.1, hlen.trans ha.2⟩

/-- A run of `n` steps appends at most `n` words. -/
theorem run_out (h : Host.Core.run Sys2Proof.core n s = .next t) :
    ∃ vs, t.out = s.out ++ vs ∧ vs.length ≤ n := by
  induction n generalizing s with
  | zero =>
    obtain rfl := run_zero_iff.1 h
    exact ⟨[], by simp, le_rfl⟩
  | succ n ih =>
    obtain ⟨u, hstep, hrun⟩ := run_succ_iff.1 h
    obtain ⟨vs, hvs, hlen⟩ := step_out hstep
    obtain ⟨ws, hws, hlen'⟩ := ih hrun
    exact ⟨vs ++ ws, by rw [hws, hvs, List.append_assoc], by rw [List.length_append]; omega⟩

/-- Settles O44: no step changes the first three, and each adds at most one word to the log. -/
theorem runKeepsLengthLatchAndLog : Obligations.RunKeepsLengthLatchAndLog :=
  fun _ _ _ h => ⟨(run_cfg_len h).2, run_inlat h, (run_cfg_len h).1, run_out h⟩

/-! #### How a run ends (R70) -/

theorem step_running (hrun : s.status = .running) : ∃ t, step s = .next t := by
  obtain ⟨t, ht, -⟩ := stepEndsInThreeWays.2 s hrun
  exact ⟨t, ht⟩

/-- A run of `m + k` steps is a run of `m` steps and then one of `k`. -/
theorem run_add_iff (h : Host.Core.run Sys2Proof.core m s = .next u) :
    Host.Core.run Sys2Proof.core (m + k) s = .next t ↔ Host.Core.run Sys2Proof.core k u = .next t := by
  induction m generalizing s with
  | zero => rw [Nat.zero_add, run_zero_iff.1 h]
  | succ m ih =>
    obtain ⟨a, hstep, hrest⟩ := run_succ_iff.1 h
    rw [Nat.add_right_comm, run_succ_iff, ← ih hrest]
    simp [hstep]

/-- No run goes on from a state that is not RUNNING. -/
theorem eq_of_run_of_stopped (hs : s.status ≠ .running)
    (h : Host.Core.run Sys2Proof.core k s = .next t) : t = s := by
  cases k with
  | zero => exact (run_zero_iff.1 h).symm
  | succ k =>
    obtain ⟨a, hstep, -⟩ := run_succ_iff.1 h
    exact absurd (status_of_step hstep) hs

theorem eq_of_run_le (hu : u.status ≠ .running) (hmn : m ≤ n)
    (hm : Host.Core.run Sys2Proof.core m s = .next u)
    (hn : Host.Core.run Sys2Proof.core n s = .next t) : t = u := by
  obtain ⟨k, rfl⟩ := Nat.exists_eq_add_of_le hmn
  exact eq_of_run_of_stopped hu ((run_add_iff hm).1 hn)

/-- A run reaches at most one state that is not RUNNING. -/
theorem eq_of_runsTo_stopped (hu : u.status ≠ .running) (ht : t.status ≠ .running) (hsu : RunsTo s u)
    (hst : RunsTo s t) : t = u := by
  obtain ⟨m, hm⟩ := hsu
  obtain ⟨n, hn⟩ := hst
  obtain hmn | hnm := Nat.le_total m n
  · exact eq_of_run_le hu hmn hm hn
  · exact (eq_of_run_le ht hnm hn hm).symm

/-- A run that reaches a state that is not RUNNING ends there. -/
theorem not_diverges_of_stopped (hu : u.status ≠ .running) (hsu : RunsTo s u) : ¬ Diverges s := by
  intro hdiv
  obtain ⟨m, hm⟩ := hsu
  obtain ⟨t, ht, hrun⟩ := hdiv m
  exact hu (eq_of_run_of_stopped (k := 0) hu ((run_add_iff hm).1 ht) ▸ hrun)

/-- A run all of whose states are RUNNING can always be made one step longer. -/
theorem diverges_of_running (h : ∀ u, RunsTo s u → u.status = .running) : Diverges s := by
  have hreach : ∀ n, ∃ t, Host.Core.run Sys2Proof.core n s = .next t := by
    intro n
    induction n with
    | zero => exact ⟨s, rfl⟩
    | succ n ih =>
      obtain ⟨t, ht⟩ := ih
      obtain ⟨u, hu⟩ := step_running (h t ⟨n, ht⟩)
      exact ⟨u, (run_add_iff ht).2 (run_succ_iff.2 ⟨u, hu, rfl⟩)⟩
  intro n
  obtain ⟨t, ht⟩ := hreach n
  exact ⟨t, ht, h t ⟨n, ht⟩⟩

/-- No step leads to READY. -/
theorem step_not_ready (h : step s = .next t) : t.status ≠ .ready := by
  obtain ⟨u, hu, hends⟩ := stepEndsInThreeWays.2 s (status_of_step h)
  cases hu.symm.trans h
  obtain ⟨ht, -⟩ | ⟨ht, -⟩ | ⟨ht, -⟩ := hends <;> simp [ht]

/-- Settles O46: either some state reached is not RUNNING, and then it is the only one, HALTED or FAULTED;
or every state reached is, and the run goes on. -/
theorem runHasOneOutcome : Obligations.RunHasOneOutcome := by
  intro s hrun
  by_cases hstop : ∃ u, RunsTo s u ∧ u.status ≠ .running
  · obtain ⟨u, hsu, hu⟩ := hstop
    have hnotReady : u.status ≠ .ready := by
      obtain ⟨n, hn⟩ := hsu
      exact run_keeps (P := fun v => v.status ≠ .ready) (fun _ _ _ hstep => step_not_ready hstep)
        (by rw [hrun]; decide) hn
    have hends : ¬ Diverges s ∧ ∀ t, RunsTo s t → t.status ≠ .running → t = u :=
      ⟨not_diverges_of_stopped hu hsu, fun t hst ht => eq_of_runsTo_stopped hu ht hsu hst⟩
    cases hstatus : u.status with
    | ready => exact absurd hstatus hnotReady
    | running => exact absurd hstatus hu
    | halted => exact .inl ⟨u, ⟨hsu, hstatus⟩, hends⟩
    | faulted => exact .inr (.inl ⟨u, ⟨hsu, hstatus⟩, hends⟩)
  · have hall : ∀ u, RunsTo s u → u.status = .running := fun u hsu =>
      not_not.1 fun hu => hstop ⟨u, hsu, hu⟩
    exact .inr (.inr ⟨diverges_of_running hall, hall⟩)

/-- Settles O47: such a jump leaves the whole state as it is, so every run of it ends where it began. -/
theorem jumpToItselfNeverEnds : Obligations.JumpToItselfNeverEnds := by
  intro s m1 m2 high c hrun hpc hjump hc hp
  have hself : step s = .next s := step_of_taken_jump hrun hpc hjump hc hp
  refine diverges_of_running fun u ⟨n, hn⟩ => ?_
  have hsame : u = s := run_keeps (P := fun u => u = s)
    (fun a b ha hstep => by cases hself.symm.trans (ha ▸ hstep); rfl) rfl hn
  rw [hsame, hrun]

/-! #### Output events (R101) -/

theorem stepEvent_of_silent (h : step s = .next t) (hout : t.out = s.out) : stepEvent s = none := by
  simp [stepEvent, h, hout]

theorem stepEvent_of_output (h : step s = .next t) (hout : t.out = s.out ++ [v]) :
    stepEvent s = some (s.out.length, v) := by
  simp [stepEvent, h, hout]

/-- A step that presents an event completed an Output. -/
theorem output_of_stepEvent {e : Nat × Int} (h : stepEvent s = some e) :
    s.status = .running ∧ ∃ m1 high v, fetchInstr s = .ok (.output m1 high) ∧
      readOperand s m1 1 = .ok v ∧ e = (s.out.length, v) := by
  have hsilent : ∀ {t}, step s = .next t → t.out ≠ s.out := fun hstep hout => by
    cases h.symm.trans (stepEvent_of_silent hstep hout)
  cases hstep : step s with
  | fault _ | refused _ => simp [stepEvent, hstep] at h
  | next t =>
    obtain ⟨hrun, ⟨i, hfetch, hexec⟩ | ⟨f, -, rfl⟩⟩ := step_next_iff.1 hstep
    · obtain ⟨f, rfl⟩ | ⟨_, _, -, -, rfl⟩ | ⟨m1, high, v, rfl, hv, rfl⟩ |
        ⟨_, _, _, -, rfl | ⟨_, -, rfl⟩⟩ | ⟨-, rfl⟩ := exec_next_cases hexec
      case inr.inr.inl =>
        exact ⟨hrun, m1, high, v, hfetch, hv,
          Option.some.inj (h.symm.trans (stepEvent_of_output hstep rfl))⟩
      all_goals exact (hsilent hstep rfl).elim
    · exact (hsilent hstep rfl).elim

/-- Settles O48: of what a step can do, only Output's completion adds to the log. -/
theorem outputEventsAreNumbered : Obligations.OutputEventsAreNumbered := by
  intro s n v
  constructor
  · intro h
    obtain ⟨hrun, m1, high, v', hfetch, hv, he⟩ := output_of_stepEvent h
    cases he
    obtain ⟨hpc, hdec⟩ := fetchInstr_ok_iff.1 hfetch
    exact ⟨hrun, rfl, inBounds_iff.1 hpc, m1, high, hdec, readOperand_ok_iff.1 hv⟩
  · rintro ⟨hrun, rfl, hpc, m1, high, hdec, hv⟩
    have hstep := (stepRunsTheDecodedInstruction s _ hrun hpc hdec).trans (exec_output_of_readsAs high hv)
    exact stepEvent_of_output hstep rfl

end Sys2Proof.Machine

/-! ### The host interface (spec/60_exceptions.md section 5, spec/70_reset_and_hazards.md): O43, O49 to O56 -/

namespace Sys2Proof.Machine

variable {s t : State} {op : HostOp} {r : HostReply} {P : List Int} {a v : Int}

/-! #### LOAD (R25, R105) -/

theorem firstNotAWord_eq_none {W : Nat} :
    firstNotAWord W P = none ↔ ∀ v ∈ P, minWord W ≤ v ∧ v ≤ maxWord W := by
  simp [firstNotAWord, List.find?_eq_none, fitsW_iff]

theorem hostLoad_accepted (hlen : P.length ≤ s.cfg.memWords) (hP : ∀ v ∈ P, IsWord s v) :
    hostLoad P s = (loadState P s, .done) := by
  simp [hostLoad, Nat.not_lt.2 hlen, firstNotAWord_eq_none.2 hP]

/-- LOAD changes nothing, or its image fits and is loaded. -/
theorem hostLoad_cases (h : hostLoad P s = (t, r)) :
    t = s ∨ (r = .done ∧ P.length ≤ s.cfg.memWords ∧ (∀ v ∈ P, IsWord s v) ∧ t = loadState P s) := by
  unfold hostLoad at h
  split_ifs at h with hlen
  · cases h
    exact .inl rfl
  · split at h
    case h_1 =>
      cases h
      exact .inl rfl
    case h_2 hP =>
      cases h
      exact .inr ⟨rfl, Nat.le_of_not_lt hlen, firstNotAWord_eq_none.1 hP, rfl⟩

/-- A loaded image is read cell by cell (R25: `M[i] = P[i]`). -/
theorem read_ofList {i : Nat} (h : i < P.length) : (Memory.ofList P).read i = P[i] := by
  have hread := Memory.read_ofListFrom 0 i P
  rw [Nat.zero_add] at hread
  rw [Memory.ofList, hread, List.getD_eq_getElem _ _ h]

theorem memoryImage_loadState (P : List Int) (s : State) : memoryImage (loadState P s) = P := by
  refine List.ext_getElem (by simp [memoryImage]) fun i _ hi => ?_
  simp [memoryImage, read_ofList hi]

/-- Settles O49: the accepted image is read back cell by cell, and a longer one is refused first. -/
theorem loadPutsTheImage : Obligations.LoadPutsTheImage := by
  refine ⟨fun P s hlen hP => ?_, fun P s hlen => if_pos hlen⟩
  exact ⟨_, hostLoad_accepted hlen hP, memoryImage_loadState P s, fun i hi => read_ofList hi,
    rfl, rfl, rfl, rfl, rfl, rfl, rfl⟩

/-! #### START (R107) -/

theorem hostStart_refused (h : s.status ≠ .ready) :
    hostStart v s = (s, .refused (.wrongStatus s.status)) := if_neg h

/-- START changes nothing, or the block was READY and runs. -/
theorem hostStart_cases (h : hostStart v s = (t, r)) :
    t = s ∨ (r = .done ∧ s.status = .ready ∧ IsWord s v ∧
      t = { s with inlat := v, status := .running }) := by
  by_cases hready : s.status = .ready
  · by_cases hv : IsWord s v
    · cases (hostStart_accepted hready hv).symm.trans h
      exact .inr ⟨rfl, hready, hv, rfl⟩
    · simp only [hostStart, hready, fitsW_iff, if_true, if_neg hv] at h
      cases h
      exact .inl rfl
  · cases (hostStart_refused hready).symm.trans h
    exact .inl rfl

/-- Settles O51: a word is accepted in READY, and any other status is refused first. -/
theorem startOnlyFromReady : Obligations.StartOnlyFromReady :=
  ⟨fun _ _ => hostStart_accepted, fun _ _ => hostStart_refused⟩

/-- Settles O50: power-on is the load of the empty image, and its first fetch finds index 0 outside. -/
theorem powerOnIsTheEmptyImage : Obligations.PowerOnIsTheEmptyImage := by
  intro c
  refine ⟨hostLoad_accepted (Nat.zero_le _) nofun, rfl, fun v hv => ?_⟩
  exact ⟨_, _, hostStart_accepted rfl hv, rfl, step_of_outside rfl (by simp [InImage]), rfl, rfl⟩

/-! #### Memory access (D12) -/

theorem hostAccessAllowed_iff {st : Status} :
    hostAccessAllowed st = true ↔ st = .ready ∨ st = .halted := by
  cases st <;> simp [hostAccessAllowed]

theorem hostRead_accepted (hs : s.status = .ready ∨ s.status = .halted) (ha : InImage s a) :
    hostRead a s = (s, .word (memRead s a)) := by
  simp [hostRead, hostAccessAllowed_iff.2 hs, inBounds_iff.2 ha]

theorem hostWrite_accepted (hs : s.status = .ready ∨ s.status = .halted) (ha : InImage s a)
    (hv : IsWord s v) : hostWrite a v s = (memWrite s a v, .done) := by
  simp [hostWrite, hostAccessAllowed_iff.2 hs, inBounds_iff.2 ha, fitsW_iff.2 hv]

/-- HOST_WRITE changes nothing, or it writes one word to a cell of the image. -/
theorem hostWrite_cases (h : hostWrite a v s = (t, r)) :
    t = s ∨ (r = .done ∧ inBounds s a = true ∧ IsWord s v ∧ t = memWrite s a v) := by
  unfold hostWrite at h
  split_ifs at h with _ ha hv
  · cases h
    exact .inr ⟨rfl, ha, fitsW_iff.1 hv, rfl⟩
  all_goals
    cases h
    exact .inl rfl

/-- Outside READY and HALTED or outside the image both accesses are refused. -/
theorem hostAccess_refused (h : ¬ (hostAccessAllowed s.status = true ∧ InImage s a)) (v : Int) :
    ∃ e, hostRead a s = (s, .refused e) ∧ hostWrite a v s = (s, .refused e) := by
  by_cases hs : hostAccessAllowed s.status = true
  · have ha : ¬ inBounds s a = true := fun ha => h ⟨hs, inBounds_iff.1 ha⟩
    exact ⟨.outOfRange a, by simp [hostRead, hs, ha], by simp [hostWrite, hs, ha]⟩
  · exact ⟨.wrongStatus s.status, if_neg hs, if_neg hs⟩

theorem memRead_memWrite_other {j : Int} (ha : 0 ≤ a) (hj : 0 ≤ j) (hne : j ≠ a) :
    memRead (memWrite s a v) j = memRead s j := memWrite_read_other s a v (by omega)

/-- Settles O52: an allowed access reads or writes the cell, and any other is refused. -/
theorem hostMemoryAccess : Obligations.HostMemoryAccess := by
  constructor
  · intro s a v hs ha hv
    refine ⟨hostRead_accepted hs ha, memWrite s a v, hostWrite_accepted hs ha hv, ?_, fun j hj hne => ?_,
      rfl, rfl, rfl, rfl, rfl, rfl, rfl⟩
    · rw [hostRead_accepted (s := memWrite s a v) hs ha, memRead_memWrite_self]
    · rw [hostRead_accepted (s := memWrite s a v) hs hj, memRead_memWrite_other ha.1 hj.1 hne]
  · intro s a v h
    have hrefused : ¬ (hostAccessAllowed s.status = true ∧ InImage s a) := by
      rintro ⟨hs, ha⟩
      obtain hrun | hfault | hout := h
      · simp [hrun, hostAccessAllowed] at hs
      · simp [hfault, hostAccessAllowed] at hs
      · exact hout ha
    obtain ⟨e, hread, hwrite⟩ := hostAccess_refused hrefused v
    exact ⟨e, e, hread, hwrite⟩

/-! #### Everything a host operation can do, said once (R94) -/

/-- HOST_READ, READ_STATE, the read of the latch, RESULT and ABANDON change nothing. -/
theorem hostApply_reads (hload : ∀ P, op ≠ .load P) (hwrite : ∀ a v, op ≠ .hostWrite a v)
    (hstart : ∀ v, op ≠ .start v) : (hostApply op s).1 = s := by
  cases op with
  | load P => exact absurd rfl (hload P)
  | hostWrite a v => exact absurd rfl (hwrite a v)
  | start v => exact absurd rfl (hstart v)
  | readState | readLatch => rfl
  | hostRead a =>
    simp only [hostApply, hostRead]
    split_ifs <;> rfl
  | result =>
    simp only [hostApply, hostResult]
    split_ifs <;> rfl
  | abandon =>
    simp only [hostApply, hostAbandon]
    split_ifs <;> rfl

/-- An operation changes nothing, or it is a LOAD, a HOST_WRITE or a START that is accepted. -/
theorem hostApply_cases (h : hostApply op s = (t, r)) :
    t = s ∨ (r = .done ∧
      ((∃ P, op = .load P ∧ P.length ≤ s.cfg.memWords ∧ (∀ v ∈ P, IsWord s v) ∧ t = loadState P s) ∨
        (∃ a v, op = .hostWrite a v ∧ inBounds s a = true ∧ IsWord s v ∧ t = memWrite s a v) ∨
        ∃ v, op = .start v ∧ s.status = .ready ∧ IsWord s v ∧
          t = { s with inlat := v, status := .running })) := by
  cases op with
  | load P =>
    exact (hostLoad_cases h).imp_right fun ⟨hr, hload⟩ => ⟨hr, .inl ⟨P, rfl, hload⟩⟩
  | hostWrite a v =>
    exact (hostWrite_cases h).imp_right fun ⟨hr, hwrite⟩ => ⟨hr, .inr (.inl ⟨a, v, rfl, hwrite⟩)⟩
  | start v =>
    exact (hostStart_cases h).imp_right fun ⟨hr, hstart⟩ => ⟨hr, .inr (.inr ⟨v, rfl, hstart⟩)⟩
  | hostRead | readState | readLatch | result | abandon =>
    exact .inl ((congrArg Prod.fst h).symm.trans (hostApply_reads nofun nofun nofun))

theorem inv_started (h : Inv s) (hready : s.status = .ready) (hv : IsWord s v) :
    Inv { s with inlat := v, status := .running } where
  __ := h
  inlat_word := hv
  ready_start := nofun
  halted_pc := nofun
  fault_zero _ := h.fault_zero (by rw [hready]; decide)
  fault_entry := nofun

/-- Settles O43: each of the three operations that write keeps the invariant. -/
theorem hostOperationsKeepTheInvariant : Obligations.HostOperationsKeepTheInvariant := by
  intro op s hinv
  cases h : hostApply op s with
  | mk t r =>
    obtain rfl | ⟨-, ⟨P, -, hlen, hP, rfl⟩ | ⟨a, v, -, ha, hv, rfl⟩ | ⟨v, -, hready, hv, rfl⟩⟩ :=
      hostApply_cases h
    · exact hinv
    · exact loadState_inv hinv.config hlen hP
    · exact hinv.memWrite ha hv
    · exact inv_started hinv hready hv

theorem hostResult_refused (h : s.status ≠ .halted) :
    hostApply .result s = (s, .refused (.wrongStatus s.status)) := if_neg h

/-- Settles O53: an operation that changes the state is not refused, and RESULT is refused by the status. -/
theorem refusedOperationsChangeNothing : Obligations.RefusedOperationsChangeNothing := by
  refine ⟨fun op s t e h => ?_, fun s => rfl, fun s => ⟨?_, fun hs => ⟨_, hostResult_refused hs⟩⟩⟩
  · exact (hostApply_cases h).resolve_right fun ⟨hr, _⟩ => nomatch hr
  · rintro ⟨e, he⟩ hs
    cases (hostResult_of_halted hs).symm.trans he

/-- Settles O54: a step needs RUNNING, HOST_WRITE keeps the status, and START needs READY. -/
theorem onlyLoadLeavesTerminalStatus : Obligations.OnlyLoadLeavesTerminalStatus := by
  intro s hs
  refine ⟨fun t hstep => ?_, fun op hload => ?_⟩
  · have hrun := status_of_step hstep
    simp [hrun] at hs
  · cases h : hostApply op s with
    | mk t r =>
      obtain rfl | ⟨-, ⟨P, rfl, -⟩ | ⟨a, v, -, -, -, rfl⟩ | ⟨v, -, hready, -⟩⟩ := hostApply_cases h
      · rfl
      · exact absurd rfl (hload P)
      · exact memWrite_status s a v
      · simp [hready] at hs

/-- Settles O56: of the three operations that write, HOST_WRITE writes memory alone and START the latch
and the status alone. -/
theorem hostAccessRights : Obligations.HostAccessRights := by
  refine ⟨fun s => ⟨rfl, rfl, hostResult_of_halted⟩, fun op s t r h => ?_⟩
  obtain rfl | ⟨-, ⟨P, rfl, -, -, rfl⟩ | ⟨a, v, rfl, -, -, rfl⟩ | ⟨v, rfl, -, -, rfl⟩⟩ :=
    hostApply_cases h
  · exact ⟨rfl, fun _ => ⟨rfl, rfl, rfl, rfl, fun _ => ⟨rfl, rfl⟩, fun _ => rfl⟩⟩
  · exact ⟨rfl, fun hload => absurd rfl (hload P)⟩
  · exact ⟨rfl, fun _ => ⟨rfl, rfl, rfl, rfl, fun _ => ⟨rfl, rfl⟩, fun hwrite => absurd rfl (hwrite a v)⟩⟩
  · exact ⟨rfl, fun _ => ⟨rfl, rfl, rfl, rfl, fun hstart => absurd rfl (hstart v), fun _ => rfl⟩⟩

/-! #### ABANDON (R94, log entry 7) -/

theorem sessionHost_abandoned (hload : ∀ P, op ≠ .load P) (s : State) :
    sessionHost op ⟨s, true⟩ = (⟨s, true⟩, .refused .abandoned) := by
  cases op with
  | load P => exact absurd rfl (hload P)
  | _ => rfl

/-- Settles O55, by the status of the block and the host's side of the session. -/
theorem abandonedSessionAcceptsOnlyLoad : Obligations.AbandonedSessionAcceptsOnlyLoad := by
  refine ⟨fun s hrun => ?_, fun s hrun => ?_, fun op s hload => sessionHost_abandoned hload s,
    fun P s t b hload => ?_⟩
  · simp [sessionHost, hostAbandon, hrun]
  · simp [sessionHost, hostAbandon, hrun]
  · simp [sessionHost, hload]

end Sys2Proof.Machine
